-- ==== Sys2Proof/Word.lean ====
section
/-! DEFINITION. The word types: every register and memory value is an unsigned byte (00_scope.md R10, R11). -/

namespace Sys2Proof

/-- A register or memory value, unsigned, in [0,255] (00_scope.md R11). -/
abbrev Byte := BitVec 8

/-- The index of one of the 8 general registers (10_state.md R20). -/
abbrev RegIndex := Fin 8

/-- The number of one of the 8 interrupt lines (00_scope.md R10). -/
abbrev Line := Fin 8

end Sys2Proof
end

