-- ==== Sys2Proof/Syntax.lean ====
section
/-! DEFINITION. The 29 instructions of spec/opcode_table.json (30_encoding.md R93, R95). -/

namespace Sys2Proof

/-- One constructor per row of the opcode table. An operand is the whole byte of the encoding
(30_encoding.md R90); a register operand above 7 can be written down, and faults when it is executed
(10_state.md R21), so `Instr` holds it and `Instr.wf` refuses it. -/
inductive Instr where
  /-- HLT (44_system_io.md R240). -/
  | hlt
  /-- LDI r i (42_data_movement.md R190). -/
  | ldi (r i : Byte)
  /-- PRN r (44_system_io.md R242). -/
  | prn (r : Byte)
  /-- PRA r (44_system_io.md R243). -/
  | pra (r : Byte)
  /-- ADD a b (41_alu.md R151). -/
  | add (a b : Byte)
  /-- SUB a b (41_alu.md R152). -/
  | sub (a b : Byte)
  /-- MUL a b (41_alu.md R153). -/
  | mul (a b : Byte)
  /-- DIV a b (41_alu.md R154). -/
  | div (a b : Byte)
  /-- MOD a b (41_alu.md R155). -/
  | mod (a b : Byte)
  /-- CMP a b (41_alu.md R162). -/
  | cmp (a b : Byte)
  /-- AND a b (41_alu.md R156). -/
  | and (a b : Byte)
  /-- OR a b (41_alu.md R157). -/
  | or (a b : Byte)
  /-- XOR a b (41_alu.md R158). -/
  | xor (a b : Byte)
  /-- SHL a b (41_alu.md R160). -/
  | shl (a b : Byte)
  /-- SHR a b (41_alu.md R161). -/
  | shr (a b : Byte)
  /-- NOT a (41_alu.md R159). -/
  | not (a : Byte)
  /-- PUSH r (42_data_movement.md R192). -/
  | push (r : Byte)
  /-- POP r (42_data_movement.md R193). -/
  | pop (r : Byte)
  /-- CALL a (43_control_flow.md R210). -/
  | call (a : Byte)
  /-- RET (43_control_flow.md R211). -/
  | ret
  /-- JMP a (43_control_flow.md R212). -/
  | jmp (a : Byte)
  /-- JEQ a (43_control_flow.md R214). -/
  | jeq (a : Byte)
  /-- JNE a (43_control_flow.md R215). -/
  | jne (a : Byte)
  /-- JGT a (43_control_flow.md R216). -/
  | jgt (a : Byte)
  /-- JGE a (43_control_flow.md R217). -/
  | jge (a : Byte)
  /-- JLT a (43_control_flow.md R218). -/
  | jlt (a : Byte)
  /-- JLE a (43_control_flow.md R219). -/
  | jle (a : Byte)
  /-- ST a b (42_data_movement.md R191). -/
  | st (a b : Byte)
  /-- IRET (44_system_io.md R245). -/
  | iret
deriving DecidableEq, Repr

end Sys2Proof
end

