-- ==== Sys2Proof/WellFormed.lean ====
section
/-! DEFINITION. When an instruction's operands are legal: every register-index operand is 0 to 7
(30_encoding.md R92, R93, R100; 10_state.md R21). -/

namespace Sys2Proof

/-- The register-index operands (r and addr-reg) in the order they are checked, A before B
(30_encoding.md R93; 40_fetch_execute.md R125). LDI's immediate is not among them. -/
def Instr.registerOperands : Instr → List Byte
  | .hlt => []
  | .ldi r _ => [r]
  | .prn r => [r]
  | .pra r => [r]
  | .add a b => [a, b]
  | .sub a b => [a, b]
  | .mul a b => [a, b]
  | .div a b => [a, b]
  | .mod a b => [a, b]
  | .cmp a b => [a, b]
  | .and a b => [a, b]
  | .or a b => [a, b]
  | .xor a b => [a, b]
  | .shl a b => [a, b]
  | .shr a b => [a, b]
  | .not a => [a]
  | .push r => [r]
  | .pop r => [r]
  | .call a => [a]
  | .ret => []
  | .jmp a => [a]
  | .jeq a => [a]
  | .jne a => [a]
  | .jgt a => [a]
  | .jge a => [a]
  | .jlt a => [a]
  | .jle a => [a]
  | .st a b => [a, b]
  | .iret => []

/-- The register check: an index operand is legal in 0 to 7 (30_encoding.md R100). -/
def Instr.wf (i : Instr) : Bool :=
  i.registerOperands.all fun x => decide (x.toNat < 8)

/-- The operand byte that names register `r`. -/
def regByte (r : RegIndex) : Byte := BitVec.ofNat 8 r.val

end Sys2Proof
end

