-- ==== Sys2Proof/Decode.lean ====
section
/-! DEFINITION. The opcode map, the decoder and the encoder (30_encoding.md R90 to R100). -/

namespace Sys2Proof

/-- Why bytes do not decode, by name. -/
inductive DecodeError where
  /-- No opcode byte was given. -/
  | noOpcode
  /-- The opcode byte is not in the opcode map (30_encoding.md R99). -/
  | invalidOpcode (opcode : Byte)
  /-- The opcode is in the map and fewer operand bytes follow than it takes (30_encoding.md R97). -/
  | missingOperand (opcode : Byte)
deriving DecidableEq, Repr

/-- How a row moves the PC (30_encoding.md R98). -/
inductive PcPolicy where
  /-- "auto-advance": PC + 1 + n after the handler. -/
  | autoAdvance
  /-- "explicit": the handler sets PC. -/
  | explicit
  /-- "explicit when taken", else PC + 2. -/
  | whenTaken
deriving DecidableEq, Repr

/-- One row of the opcode map: the opcode byte, the operand count n, and the instruction it stands for
given the operand bytes A and B (a row of n < 2 ignores the ones it does not have). -/
structure OpcodeRow where
  opcode : Byte
  operands : Nat
  build : Byte → Byte → Instr

/-- The opcode map, `OPCODE_MAP` at its default (30_encoding.md R95). PRESUMED: the byte values are from
general knowledge, not from the source (notes/assumptions/1.md), unsafe. -/
def opcodeMap : List OpcodeRow :=
  [ ⟨0x01#8, 0, fun _ _ => .hlt⟩,
    ⟨0x82#8, 2, fun a b => .ldi a b⟩,
    ⟨0x47#8, 1, fun a _ => .prn a⟩,
    ⟨0x48#8, 1, fun a _ => .pra a⟩,
    ⟨0xA0#8, 2, fun a b => .add a b⟩,
    ⟨0xA1#8, 2, fun a b => .sub a b⟩,
    ⟨0xA2#8, 2, fun a b => .mul a b⟩,
    ⟨0xA3#8, 2, fun a b => .div a b⟩,
    ⟨0xA4#8, 2, fun a b => .mod a b⟩,
    ⟨0xA7#8, 2, fun a b => .cmp a b⟩ ] ++
  [ ⟨0xA8#8, 2, fun a b => .and a b⟩,
    ⟨0xAA#8, 2, fun a b => .or a b⟩,
    ⟨0xAB#8, 2, fun a b => .xor a b⟩,
    ⟨0xAC#8, 2, fun a b => .shl a b⟩,
    ⟨0xAD#8, 2, fun a b => .shr a b⟩,
    ⟨0x69#8, 1, fun a _ => .not a⟩,
    ⟨0x45#8, 1, fun a _ => .push a⟩,
    ⟨0x46#8, 1, fun a _ => .pop a⟩,
    ⟨0x50#8, 1, fun a _ => .call a⟩,
    ⟨0x11#8, 0, fun _ _ => .ret⟩ ] ++
  [ ⟨0x54#8, 1, fun a _ => .jmp a⟩,
    ⟨0x55#8, 1, fun a _ => .jeq a⟩,
    ⟨0x56#8, 1, fun a _ => .jne a⟩,
    ⟨0x57#8, 1, fun a _ => .jgt a⟩,
    ⟨0x5A#8, 1, fun a _ => .jge a⟩,
    ⟨0x58#8, 1, fun a _ => .jlt a⟩,
    ⟨0x59#8, 1, fun a _ => .jle a⟩,
    ⟨0x84#8, 2, fun a b => .st a b⟩,
    ⟨0x13#8, 0, fun _ _ => .iret⟩ ]

/-- `DECODE(op)`: the row whose opcode equals `op`, or none (30_encoding.md R96). -/
def lookupOpcode (op : Byte) : Option OpcodeRow :=
  opcodeMap.find? fun row => row.opcode == op

/-- Decode the instruction at the front of `bytes`, with the bytes after it (30_encoding.md R90, R96, R97).
Total on any bytes. -/
def decode : List Byte → Except DecodeError (Instr × List Byte)
  | [] => .error .noOpcode
  | op :: rest =>
    match lookupOpcode op with
    | none => .error (.invalidOpcode op)
    | some row =>
      match row.operands, rest with
      | 0, rest => .ok (row.build 0#8 0#8, rest)
      | 1, a :: rest => .ok (row.build a 0#8, rest)
      | 2, a :: b :: rest => .ok (row.build a b, rest)
      | _, _ => .error (.missingOperand op)

/-- The bytes of an instruction at increasing addresses, from the map of 30_encoding.md R95 and the
shapes of R93. -/
def encode : Instr → List Byte
  | .hlt => [0x01#8]
  | .ldi r i => [0x82#8, r, i]
  | .prn r => [0x47#8, r]
  | .pra r => [0x48#8, r]
  | .add a b => [0xA0#8, a, b]
  | .sub a b => [0xA1#8, a, b]
  | .mul a b => [0xA2#8, a, b]
  | .div a b => [0xA3#8, a, b]
  | .mod a b => [0xA4#8, a, b]
  | .cmp a b => [0xA7#8, a, b]
  | .and a b => [0xA8#8, a, b]
  | .or a b => [0xAA#8, a, b]
  | .xor a b => [0xAB#8, a, b]
  | .shl a b => [0xAC#8, a, b]
  | .shr a b => [0xAD#8, a, b]
  | .not a => [0x69#8, a]
  | .push r => [0x45#8, r]
  | .pop r => [0x46#8, r]
  | .call a => [0x50#8, a]
  | .ret => [0x11#8]
  | .jmp a => [0x54#8, a]
  | .jeq a => [0x55#8, a]
  | .jne a => [0x56#8, a]
  | .jgt a => [0x57#8, a]
  | .jge a => [0x5A#8, a]
  | .jlt a => [0x58#8, a]
  | .jle a => [0x59#8, a]
  | .st a b => [0x84#8, a, b]
  | .iret => [0x13#8]

/-- The opcode byte of an instruction: the first byte of its encoding. -/
def opcodeOf (i : Instr) : Byte := (encode i).headD 0#8

/-- Instruction length in bytes, 1 + n (30_encoding.md R97). -/
def lengthOf (i : Instr) : Nat := (encode i).length

/-- The PC policy of each row (30_encoding.md R95, R98). -/
def policyOf : Instr → PcPolicy
  | .hlt => .autoAdvance
  | .ldi _ _ => .autoAdvance
  | .prn _ => .autoAdvance
  | .pra _ => .autoAdvance
  | .add _ _ => .autoAdvance
  | .sub _ _ => .autoAdvance
  | .mul _ _ => .autoAdvance
  | .div _ _ => .autoAdvance
  | .mod _ _ => .autoAdvance
  | .cmp _ _ => .autoAdvance
  | .and _ _ => .autoAdvance
  | .or _ _ => .autoAdvance
  | .xor _ _ => .autoAdvance
  | .shl _ _ => .autoAdvance
  | .shr _ _ => .autoAdvance
  | .not _ => .autoAdvance
  | .push _ => .autoAdvance
  | .pop _ => .autoAdvance
  | .call _ => .explicit
  | .ret => .explicit
  | .jmp _ => .explicit
  | .jeq _ => .whenTaken
  | .jne _ => .whenTaken
  | .jgt _ => .whenTaken
  | .jge _ => .whenTaken
  | .jlt _ => .whenTaken
  | .jle _ => .whenTaken
  | .st _ _ => .autoAdvance
  | .iret => .explicit

/-- The longest instruction's bytes, from a number whose bits are numbered as spec/opcode_table.json
numbers them: the first byte in bits 7..0, the next in bits 15..8, the third in bits 23..16; the bits
from `nbits` up are 0. -/
def tableBytes (nbits w : Nat) : List Byte :=
  [BitVec.ofNat 8 (w % 2 ^ nbits), BitVec.ofNat 8 (w % 2 ^ nbits / 256), BitVec.ofNat 8 (w % 2 ^ nbits / 65536)]

/-- The instruction the decoder reads from an opcode-table word of `nbits` bits. -/
def decodeTableWord (nbits w : Nat) : Option Instr :=
  match decode (tableBytes nbits w) with
  | .ok (i, _) => some i
  | .error _ => none

end Sys2Proof
end

