-- ==== Sys2Proof/Config.lean ====
section
/-! DEFINITION. The parameters of 00_scope.md R5 and R10, and the one free value, the timer input. -/

namespace Sys2Proof.Config

/-- R7's and SP's reset value (00_scope.md R5, R10; 10_state.md R25, R34). -/
def spSeed : Byte := 0xF4#8

/-- The register that is the interrupt mask, IM (10_state.md R23). -/
def imRegister : RegIndex := 5

/-- The register that is the interrupt status, IS (10_state.md R24). -/
def isRegister : RegIndex := 6

/-- The base of the interrupt vector table (00_scope.md R10; 20_memory.md R67). -/
def vectorBase : Nat := 0xF8

/-- The input `timer_fire` of an iteration, drawn freely (60_exceptions.md R310, D8). No body: nothing
can be proved of its values. `State.timerInput` supplies the inputs first; this supplies them once that
list is used up, number `n` being `timerFire n`. DESIGN CHOICE (notes/assumptions/2.md), safe. -/
opaque timerFire : Nat → Bool

end Sys2Proof.Config
end

