-- ==== Sys2Proof/Machine/State.lean ====
section
/-! DEFINITION. The state of the machine: everything 10_state.md R43 names, and the model's two timer
fields. Plain data. -/

namespace Sys2Proof.Machine

/-- The sub-cause of a BoundsFault (60_exceptions.md R301). -/
inductive BoundsCause where
  /-- A memory access at an address below 0 or above 255. -/
  | mem (address : Int)
  /-- A register-index operand above 7. -/
  | reg (index : Nat)
  /-- A return address or saved PC above 255, about to be pushed. -/
  | retaddr (value : Nat)
deriving DecidableEq, Repr

/-- The info of an ArithmeticFault (60_exceptions.md R305). -/
inductive DivideKind where
  /-- Raised by DIV. -/
  | div
  /-- Raised by MOD. -/
  | mod
deriving DecidableEq, Repr

/-- The four faults of 60_exceptions.md R300, with the info of R305. A handler, a memory operation or the
fetch raises one; `iterate` turns it into the Halted state of R305 and R306, as the spec says, so every
one of them is safe. -/
inductive Fault where
  /-- BoundsFault (code 1): raised by fetch, operand fetch, the register-index check, PUSH, POP, CALL, RET,
  IRET and interrupt entry (R301). The spec's own fault, safe. -/
  | bounds (cause : BoundsCause)
  /-- UnsupportedOperation (code 2): raised by the ALU for an operation code outside its table
  (41_alu.md R163); no instruction raises it (R302). The spec's own fault, safe. -/
  | unsupportedOperation
  /-- ArithmeticFault (code 3): raised by DIV and MOD when the divisor is 0 (R303). The spec's own fault,
  safe. -/
  | arithmetic (kind : DivideKind)
  /-- InvalidInstruction (code 4): raised by decode for an opcode outside the map (R304). The spec's own
  fault, safe. -/
  | invalidInstruction
deriving DecidableEq, Repr

/-- Why the model has no meaning for an instruction. No arm of `exec` gives one. -/
inductive Refusal where
  /-- Raised by an arm of `exec` whose instruction has no meaning yet: none now. Safe: it stops. -/
  | notModelled (mnemonic : String)
deriving DecidableEq, Repr

/-- The record of a fault in the Halted state (60_exceptions.md R305): `fault` gives the kind and the info,
`pc` the PC at the start of the faulting iteration, `opcode` the byte fetched there, or none. -/
structure FaultRecord where
  fault : Fault
  pc : Nat
  opcode : Option Byte
deriving DecidableEq, Repr

/-- The outcome of a run (10_state.md R40). -/
inductive RunOutcome where
  /-- HLT was executed. -/
  | hlt
  /-- A fault was raised. -/
  | fault (record : FaultRecord)
deriving DecidableEq, Repr

/-- The run state of the orchestrator (10_state.md R40; 40_fetch_execute.md R120). -/
inductive RunState where
  /-- Constructed, not yet run. -/
  | idle
  /-- Executing iterations. -/
  | running
  /-- Terminal. -/
  | halted (outcome : RunOutcome)
deriving DecidableEq, Repr

/-- An output event (44_system_io.md R241). -/
inductive OutputEvent where
  /-- `Dec(v)`, emitted by PRN. -/
  | dec (value : Byte)
  /-- `Chr(v)`, emitted by PRA. -/
  | chr (value : Byte)
deriving DecidableEq, Repr

/-- Memory: the (address, byte) pairs of the cells that are not 0, by rising address. An unlisted
address reads 0 (20_memory.md R60). The form is `Memory.wf`. -/
abbrev Memory := List Host.Cell

/-- The state vector of 10_state.md, and the timer input. -/
structure State where
  /-- The 256 memory cells (20_memory.md R60). -/
  mem : Memory
  /-- R0 to R7; R5 is IM and R6 is IS (10_state.md R20, R23, R24). -/
  regs : Vector Byte 8
  /-- The address of the next instruction to fetch, never truncated (10_state.md R27, R28). -/
  pc : Nat
  /-- The flags: bit 0 = E, bit 1 = L, bit 2 = G (10_state.md R30). -/
  fl : BitVec 3
  /-- The stack pointer, an integer, never truncated (10_state.md R36). -/
  sp : Int
  /-- The interrupt-enable flag (10_state.md R38). -/
  ie : Bool
  /-- Idle, Running or Halted (10_state.md R40). -/
  run : RunState
  /-- The output events emitted so far, the oldest first (10_state.md R41). -/
  out : List OutputEvent
  /-- The model's own field: the `timer_fire` inputs of the iterations to come, the next one first
  (60_exceptions.md R310; notes/assumptions/2.md). -/
  timerInput : List Bool
  /-- The model's own field: how many inputs have been drawn from `Config.timerFire`
  (notes/assumptions/2.md). -/
  draws : Nat
deriving DecidableEq, Repr

/-- Reset (70_reset_and_hazards.md R350). R0 to R6 and FL are 0 by the spec's decision D6
(notes/assumptions/5.md); the two timer fields are the model's (notes/assumptions/6.md). -/
def State.reset : State where
  mem := []
  regs := #v[0#8, 0#8, 0#8, 0#8, 0#8, 0#8, 0#8, Config.spSeed]
  pc := 0
  fl := 0#3
  sp := Config.spSeed.toNat
  ie := true
  run := .idle
  out := []
  timerInput := []
  draws := 0

end Sys2Proof.Machine
end

