-- ==== Sys2Proof/Machine/Ops.lean ====
section
/-! DEFINITION. The named operations over memory, registers, the stack, the timer and the interrupt
controller. An operation that may raise a fault answers in `Except Fault`. -/

namespace Sys2Proof.Machine

/-- `mask8(v)`: v modulo 256, as a non-negative remainder, for v of any sign (00_scope.md R12). -/
def mask8 (v : Int) : Byte := BitVec.ofInt 8 v

/-- The byte at address `a`; 0 where nothing is listed (20_memory.md R60). -/
def Memory.read : Memory → Nat → Byte
  | [], _ => 0#8
  | (k, v) :: rest, a => if k = a then v else Memory.read rest a

/-- Store `v` at address `a`, keeping the canonical form: a cell that becomes 0 is not listed. -/
def Memory.write : Memory → Nat → Byte → Memory
  | [], a, v => if v = 0#8 then [] else [(a, v)]
  | (k, u) :: rest, a, v =>
    if a < k then (if v = 0#8 then (k, u) :: rest else (a, v) :: (k, u) :: rest)
    else if a = k then (if v = 0#8 then rest else (a, v) :: rest)
    else (k, u) :: Memory.write rest a v

/-- The canonical form: addresses strictly rising and below 256 (the length never changes, 20_memory.md
R60), no listed byte 0. -/
def Memory.wf : Memory → Bool
  | [] => true
  | (k, v) :: rest => decide (k < 256) && v != 0#8 && rest.all (fun c => decide (k < c.1)) && Memory.wf rest

/-- Store bytes at increasing addresses from `a`. -/
def Memory.writeBytes : Memory → Nat → List Byte → Memory
  | m, _, [] => m
  | m, a, v :: rest => Memory.writeBytes (Memory.write m a v) (a + 1) rest

/-- The byte that memory holds at address `a`. -/
def State.byteAt (s : State) (a : Nat) : Byte := s.mem.read a

/-- `MemRead(a, 1)` (00_scope.md R12; 20_memory.md R62): BoundsFault outside [0,255]. -/
def memRead (a : Int) (s : State) : Except Fault Byte :=
  if 0 ≤ a ∧ a ≤ 255 then .ok (s.byteAt a.toNat) else .error (.bounds (.mem a))

/-- `MemWrite(a, 1, v)` (00_scope.md R12; 20_memory.md R62): BoundsFault outside [0,255], and then
nothing is written. -/
def memWrite (a : Int) (v : Byte) (s : State) : Except Fault State :=
  if 0 ≤ a ∧ a ≤ 255 then .ok { s with mem := s.mem.write a.toNat v } else .error (.bounds (.mem a))

/-- `R[r]` (00_scope.md R12). No register is hardwired (10_state.md R26). -/
def State.reg (s : State) (r : RegIndex) : Byte := s.regs[r.val]

/-- `R[r] <- v` (00_scope.md R12). Writing R7 leaves SP alone (10_state.md R25). -/
def State.setReg (s : State) (r : RegIndex) (v : Byte) : State := { s with regs := s.regs.set r.val v }

/-- IM, that is R5 (10_state.md R23). -/
def State.im (s : State) : Byte := s.reg Config.imRegister

/-- IS, that is R6 (10_state.md R24). -/
def State.is (s : State) : Byte := s.reg Config.isRegister

/-- `PC <- PC + n` (40_fetch_execute.md R127). -/
def State.advance (s : State) (n : Nat) : State := { s with pc := s.pc + n }

/-- `emit(e)`: append to the output stream (00_scope.md R12; 10_state.md R41). -/
def State.emit (s : State) (e : OutputEvent) : State := { s with out := s.out ++ [e] }

/-- Write at SP − 1 and decrement SP (42_data_movement.md R192). -/
def push (v : Byte) (s : State) : Except Fault State := do
  let t ← memWrite (s.sp - 1) v s
  .ok { t with sp := s.sp - 1 }

/-- Push an address: one above 255 raises BoundsFault(retaddr) before the push (43_control_flow.md R210;
60_exceptions.md R314, D5). -/
def pushAddress (v : Nat) (s : State) : Except Fault State :=
  if v > 255 then .error (.bounds (.retaddr v)) else push (BitVec.ofNat 8 v) s

/-- Push each value in order (60_exceptions.md R314, step 3). -/
def pushAll : List Nat → State → Except Fault State
  | [], s => .ok s
  | v :: rest, s => do
    let t ← pushAddress v s
    pushAll rest t

/-- Read at SP and increment SP (42_data_movement.md R193): the byte, and the state after. -/
def pop (s : State) : Except Fault (Byte × State) := do
  let v ← memRead s.sp s
  .ok (v, { s with sp := s.sp + 1 })

/-- Pop each register in order (44_system_io.md R245). -/
def popRegisters : List RegIndex → State → Except Fault State
  | [], s => .ok s
  | r :: rest, s => do
    let (v, t) ← pop s
    popRegisters rest (t.setReg r v)

/-- The `timer_fire` input of this iteration (60_exceptions.md R310): the next listed input, or else a
free draw. -/
def State.timerFire (s : State) : Bool :=
  match s.timerInput with
  | fire :: _ => fire
  | [] => Config.timerFire s.draws

/-- The timer input moves on to the next iteration's. -/
def State.nextTimerInput (s : State) : State :=
  match s.timerInput with
  | _ :: rest => { s with timerInput := rest }
  | [] => { s with draws := s.draws + 1 }

/-- The timer check of an iteration: a fire sets IS bit 0 (60_exceptions.md R310, R311). -/
def timerCheck (s : State) : State :=
  if s.timerFire then s.nextTimerInput.setReg Config.isRegister (s.is ||| 0x01#8) else s.nextTimerInput

/-- `lowest_set_bit(v)`: the least i with `v[i] = 1` (00_scope.md R12); none where v is 0. -/
def lowestSetBit (v : Byte) : Option Line :=
  (List.finRange 8).find? fun i => v.getLsbD i.val

/-- The interrupt check: with ie set, the lowest pending line of IM & IS (60_exceptions.md R312, R313). -/
def pendingLine (s : State) : Option Line :=
  if s.ie then lowestSetBit (s.im &&& s.is) else none

/-- The nine values that interrupt entry saves, in the order it pushes them: PC, FL zero-extended, R0 to R6
(60_exceptions.md R314; FL by D2, notes/assumptions/12.md). -/
def savedFrame (s : State) : List Nat :=
  [s.pc, s.fl.toNat, (s.reg 0).toNat, (s.reg 1).toNat, (s.reg 2).toNat, (s.reg 3).toNat, (s.reg 4).toNat,
    (s.reg 5).toNat, (s.reg 6).toNat]

/-- Steps 1 and 2 of interrupt entry: ie <- false, and IS bit i is cleared (60_exceptions.md R314). -/
def acknowledge (i : Line) (s : State) : State :=
  { s with ie := false }.setReg Config.isRegister (s.is &&& ~~~(1#8 <<< i.val))

/-- Interrupt entry, `enter_interrupt(i)` (60_exceptions.md R314). -/
def enterInterrupt (i : Line) (s : State) : Except Fault State := do
  let t ← pushAll (savedFrame (acknowledge i s)) (acknowledge i s)
  let handler ← memRead (Config.vectorBase + i.val : Nat) t
  .ok { t with pc := handler.toNat }

/-- Bits 2:0 of a popped flags byte (44_system_io.md R245, D2; notes/assumptions/12.md). -/
def flagsOfByte (v : Byte) : BitVec 3 := v.extractLsb' 0 3

/-- Interrupt return: pop R6 to R0, FL and PC, and set ie (44_system_io.md R245). -/
def returnFromInterrupt (s : State) : Except Fault State := do
  let t ← popRegisters [6, 5, 4, 3, 2, 1, 0] s
  let (flags, t) ← pop t
  let (target, t) ← pop t
  .ok { t with fl := flagsOfByte flags, pc := target.toNat, ie := true }

/-- Taking a fault: the state at the start of the iteration, with run = Halted(Fault(...))
(40_fetch_execute.md R128, R129; 60_exceptions.md R305, R306; notes/assumptions/7.md). Faults have no
handler and no vector (R306). -/
def takeFault (start : State) (f : Fault) (opcode : Option Byte) : State :=
  { start with run := .halted (.fault ⟨f, start.pc, opcode⟩) }

/-- The code of a fault's kind (60_exceptions.md R300, D9; notes/assumptions/8.md). -/
def Fault.code : Fault → Nat
  | .bounds _ => 1
  | .unsupportedOperation => 2
  | .arithmetic _ => 3
  | .invalidInstruction => 4

/-- A handler's answer as the outcome of `exec`: a raised fault is the outcome `fault`, which the iteration
turns into `takeFault`. -/
def ofHandler : Except Fault State → Host.Outcome State Fault Refusal
  | .ok s => .next s
  | .error f => .fault f

end Sys2Proof.Machine
end

