-- ==== Sys2Proof/Machine/Flags.lean ====
section
/-! DEFINITION. The flags register: the compare that sets it and the conditions that read it. -/

namespace Sys2Proof.Machine

/-- The flags of a compare: E, L or G, exactly one bit, unsigned (41_alu.md R162). -/
def compareFlags (x y : Byte) : BitVec 3 :=
  if x.toNat = y.toNat then 0b001#3
  else if x.toNat < y.toNat then 0b010#3
  else 0b100#3

/-- FL.E, bit 0 (10_state.md R30). -/
def flagE (fl : BitVec 3) : Bool := fl.getLsbD 0

/-- FL.L, bit 1 (10_state.md R30). -/
def flagL (fl : BitVec 3) : Bool := fl.getLsbD 1

/-- FL.G, bit 2 (10_state.md R30). -/
def flagG (fl : BitVec 3) : Bool := fl.getLsbD 2

/-- JEQ's condition (43_control_flow.md R214). -/
def condEq (fl : BitVec 3) : Bool := flagE fl

/-- JNE's condition (43_control_flow.md R215). PRESUMED by the spec: general knowledge
(notes/assumptions/13.md), unsafe. -/
def condNe (fl : BitVec 3) : Bool := !flagE fl

/-- JGT's condition (43_control_flow.md R216). -/
def condGt (fl : BitVec 3) : Bool := flagG fl

/-- JGE's condition (43_control_flow.md R217). PRESUMED by the spec: general knowledge
(notes/assumptions/13.md), unsafe. -/
def condGe (fl : BitVec 3) : Bool := flagG fl || flagE fl

/-- JLT's condition (43_control_flow.md R218). -/
def condLt (fl : BitVec 3) : Bool := flagL fl

/-- JLE's condition (43_control_flow.md R219). PRESUMED by the spec: general knowledge
(notes/assumptions/13.md), unsafe. -/
def condLe (fl : BitVec 3) : Bool := flagL fl || flagE fl

end Sys2Proof.Machine
end

