-- ==== Sys2Proof/Machine/Operands.lean ====
section
/-! DEFINITION. The operand forms: the register-index check, and the addressing modes (42_data_movement.md
R194). An immediate operand is its raw byte and needs no operation (30_encoding.md R92). -/

namespace Sys2Proof.Machine

/-- A register-index operand: a byte above 7 raises BoundsFault(reg) (10_state.md R21; 40_fetch_execute.md
R125; 60_exceptions.md R301). -/
def regOperand (x : Byte) : Except Fault RegIndex :=
  if h : x.toNat < 8 then .ok ⟨x.toNat, h⟩ else .error (.bounds (.reg x.toNat))

/-- A handler with one register operand, checked before the handler runs (40_fetch_execute.md R125). -/
def withReg (a : Byte) (handler : RegIndex → Except Fault State) : Host.Outcome State Fault Refusal :=
  ofHandler do
    let ra ← regOperand a
    handler ra

/-- A handler with two register operands, A checked before B (40_fetch_execute.md R125). -/
def withRegs (a b : Byte) (handler : RegIndex → RegIndex → Except Fault State) :
    Host.Outcome State Fault Refusal :=
  ofHandler do
    let ra ← regOperand a
    let rb ← regOperand b
    handler ra rb

/-- The address of a register-indirect operand: the register's value, with no offset
(42_data_movement.md R194). -/
def indirectAddress (r : RegIndex) (s : State) : Nat := (s.reg r).toNat

end Sys2Proof.Machine
end

