-- ==== Sys2Proof/Machine/Alu.lean ====
section
/-! DEFINITION. The ALU and its 12 instructions (41_alu.md). -/

namespace Sys2Proof.Machine

/-- What an ALU operation produces: a value for register a, or, for CMP, flags. -/
inductive AluResult where
  /-- Written back to register a (41_alu.md R150). -/
  | value (v : Byte)
  /-- Written to FL (41_alu.md R162). -/
  | flags (fl : BitVec 3)
deriving DecidableEq, Repr

/-- ADD: the sum modulo 256 (41_alu.md R151). -/
def aluAdd (x y : Byte) : Byte := mask8 ((x.toNat : Int) + y.toNat)

/-- SUB: the difference, an integer, reduced to [0,255] (41_alu.md R152). -/
def aluSub (x y : Byte) : Byte := mask8 ((x.toNat : Int) - y.toNat)

/-- MUL: the low 8 bits of the product (41_alu.md R153). -/
def aluMul (x y : Byte) : Byte := mask8 ((x.toNat : Int) * y.toNat)

/-- DIV: the unsigned quotient, or ArithmeticFault where the divisor is 0 (41_alu.md R154, R165). -/
def aluDiv (x y : Byte) : Except Fault Byte :=
  if y.toNat = 0 then .error (.arithmetic .div) else .ok (BitVec.ofNat 8 (x.toNat / y.toNat))

/-- MOD: the unsigned remainder, or ArithmeticFault where the divisor is 0 (41_alu.md R155, R165). -/
def aluMod (x y : Byte) : Except Fault Byte :=
  if y.toNat = 0 then .error (.arithmetic .mod) else .ok (BitVec.ofNat 8 (x.toNat % y.toNat))

/-- AND (41_alu.md R156). -/
def aluAnd (x y : Byte) : Byte := x &&& y

/-- OR (41_alu.md R157). -/
def aluOr (x y : Byte) : Byte := x ||| y

/-- XOR (41_alu.md R158). -/
def aluXor (x y : Byte) : Byte := x ^^^ y

/-- NOT: the 8-bit complement, 255 − x (41_alu.md R159). -/
def aluNot (x : Byte) : Byte := mask8 (255 - (x.toNat : Int))

/-- SHL: shifted left on unbounded naturals, then masked; 0 for a count of 8 or more (41_alu.md R160). -/
def aluShl (x y : Byte) : Byte := mask8 ((x.toNat <<< y.toNat : Nat) : Int)

/-- SHR: shifted right, filling with zeros; 0 for a count of 8 or more (41_alu.md R161). -/
def aluShr (x y : Byte) : Byte := mask8 ((x.toNat >>> y.toNat : Nat) : Int)

/-- The ALU's table (41_alu.md R151 to R163). An operation code outside it fails with UnsupportedOperation;
no instruction reaches that (60_exceptions.md R302). DEDUCED: the operation code is the instruction's opcode
byte (notes/assumptions/15.md), safe. NOT is unary; its `y` is unused (41_alu.md R159). -/
def alu (operation x y : Byte) : Except Fault AluResult :=
  match operation.toNat with
  | 0xA0 => .ok (.value (aluAdd x y))
  | 0xA1 => .ok (.value (aluSub x y))
  | 0xA2 => .ok (.value (aluMul x y))
  | 0xA3 => (aluDiv x y).map .value
  | 0xA4 => (aluMod x y).map .value
  | 0xA7 => .ok (.flags (compareFlags x y))
  | 0xA8 => .ok (.value (aluAnd x y))
  | 0xAA => .ok (.value (aluOr x y))
  | 0xAB => .ok (.value (aluXor x y))
  | 0xAC => .ok (.value (aluShl x y))
  | 0xAD => .ok (.value (aluShr x y))
  | 0x69 => .ok (.value (aluNot x))
  | _ => .error .unsupportedOperation

/-- Write an ALU result: a value to register a, flags to FL (41_alu.md R150, R162). -/
def State.writeResult (s : State) (a : RegIndex) : AluResult → State
  | .value v => s.setReg a v
  | .flags fl => { s with fl := fl }

/-- A two-operand ALU instruction: both operands are read before the result is written; PC + 3
(41_alu.md R150). -/
def aluBinary (operation a b : Byte) (s : State) : Host.Outcome State Fault Refusal :=
  withRegs a b fun ra rb => do
    let result ← alu operation (s.reg ra) (s.reg rb)
    .ok ((s.writeResult ra result).advance 3)

/-- A one-operand ALU instruction (NOT): PC + 2 (41_alu.md R150, R159). -/
def aluUnary (operation a : Byte) (s : State) : Host.Outcome State Fault Refusal :=
  withReg a fun ra => do
    let result ← alu operation (s.reg ra) 0#8
    .ok ((s.writeResult ra result).advance 2)

/-- ADD (41_alu.md R151). -/
def execAdd (a b : Byte) (s : State) : Host.Outcome State Fault Refusal := aluBinary 0xA0#8 a b s

/-- SUB (41_alu.md R152). -/
def execSub (a b : Byte) (s : State) : Host.Outcome State Fault Refusal := aluBinary 0xA1#8 a b s

/-- MUL (41_alu.md R153). -/
def execMul (a b : Byte) (s : State) : Host.Outcome State Fault Refusal := aluBinary 0xA2#8 a b s

/-- DIV (41_alu.md R154). -/
def execDiv (a b : Byte) (s : State) : Host.Outcome State Fault Refusal := aluBinary 0xA3#8 a b s

/-- MOD (41_alu.md R155). -/
def execMod (a b : Byte) (s : State) : Host.Outcome State Fault Refusal := aluBinary 0xA4#8 a b s

/-- CMP (41_alu.md R162). -/
def execCmp (a b : Byte) (s : State) : Host.Outcome State Fault Refusal := aluBinary 0xA7#8 a b s

/-- AND (41_alu.md R156). -/
def execAnd (a b : Byte) (s : State) : Host.Outcome State Fault Refusal := aluBinary 0xA8#8 a b s

/-- OR (41_alu.md R157). -/
def execOr (a b : Byte) (s : State) : Host.Outcome State Fault Refusal := aluBinary 0xAA#8 a b s

/-- XOR (41_alu.md R158). -/
def execXor (a b : Byte) (s : State) : Host.Outcome State Fault Refusal := aluBinary 0xAB#8 a b s

/-- SHL (41_alu.md R160). -/
def execShl (a b : Byte) (s : State) : Host.Outcome State Fault Refusal := aluBinary 0xAC#8 a b s

/-- SHR (41_alu.md R161). -/
def execShr (a b : Byte) (s : State) : Host.Outcome State Fault Refusal := aluBinary 0xAD#8 a b s

/-- NOT (41_alu.md R159). -/
def execNot (a : Byte) (s : State) : Host.Outcome State Fault Refusal := aluUnary 0x69#8 a s

end Sys2Proof.Machine
end

