-- ==== Sys2Proof/Machine/ControlFlow.lean ====
section
/-! DEFINITION. CALL, RET, JMP and the conditional jumps (43_control_flow.md). -/

namespace Sys2Proof.Machine

/-- `PC <- R[r]` (43_control_flow.md R212, R213). -/
def State.jumpTo (s : State) (r : RegIndex) : State := { s with pc := (s.reg r).toNat }

/-- CALL: the target is read, the return address PC + 2 is pushed (a return address of 256 faults first),
and PC becomes the target (43_control_flow.md R210). -/
def execCall (a : Byte) (s : State) : Host.Outcome State Fault Refusal :=
  withReg a fun ra => do
    let t ← pushAddress (s.pc + 2) s
    .ok { t with pc := (s.reg ra).toNat }

/-- RET: PC gets the byte at SP, then SP + 1 (43_control_flow.md R211). -/
def execRet (s : State) : Host.Outcome State Fault Refusal :=
  ofHandler do
    let (v, t) ← pop s
    .ok { t with pc := v.toNat }

/-- JMP (43_control_flow.md R212). -/
def execJmp (a : Byte) (s : State) : Host.Outcome State Fault Refusal :=
  withReg a fun ra => .ok (s.jumpTo ra)

/-- A conditional jump: PC <- R[a] where the condition holds, else PC + 2. The register index is checked
either way (43_control_flow.md R222, D14; notes/assumptions/9.md). -/
def conditionalJump (condition : BitVec 3 → Bool) (a : Byte) (s : State) : Host.Outcome State Fault Refusal :=
  withReg a fun ra => .ok (if condition s.fl then s.jumpTo ra else s.advance 2)

/-- JEQ (43_control_flow.md R214). -/
def execJeq (a : Byte) (s : State) : Host.Outcome State Fault Refusal := conditionalJump condEq a s

/-- JNE (43_control_flow.md R215). -/
def execJne (a : Byte) (s : State) : Host.Outcome State Fault Refusal := conditionalJump condNe a s

/-- JGT (43_control_flow.md R216). -/
def execJgt (a : Byte) (s : State) : Host.Outcome State Fault Refusal := conditionalJump condGt a s

/-- JGE (43_control_flow.md R217). -/
def execJge (a : Byte) (s : State) : Host.Outcome State Fault Refusal := conditionalJump condGe a s

/-- JLT (43_control_flow.md R218). -/
def execJlt (a : Byte) (s : State) : Host.Outcome State Fault Refusal := conditionalJump condLt a s

/-- JLE (43_control_flow.md R219). -/
def execJle (a : Byte) (s : State) : Host.Outcome State Fault Refusal := conditionalJump condLe a s

end Sys2Proof.Machine
end

