-- ==== Sys2Proof/Machine/DataMovement.lean ====
section
/-! DEFINITION. LDI, ST, PUSH and POP (42_data_movement.md). -/

namespace Sys2Proof.Machine

/-- LDI: `R[r] <- i`; PC + 3 (42_data_movement.md R190). -/
def execLdi (r i : Byte) (s : State) : Host.Outcome State Fault Refusal :=
  withReg r fun rr => .ok ((s.setReg rr i).advance 3)

/-- ST: `MemWrite(R[a], 1, R[b])`; PC + 3 (42_data_movement.md R191). -/
def execSt (a b : Byte) (s : State) : Host.Outcome State Fault Refusal :=
  withRegs a b fun ra rb => do
    let t ← memWrite (indirectAddress ra s) (s.reg rb) s
    .ok (t.advance 3)

/-- PUSH: SP − 1, then the value of r is stored there; PC + 2 (42_data_movement.md R192). -/
def execPush (r : Byte) (s : State) : Host.Outcome State Fault Refusal :=
  withReg r fun rr => do
    let t ← push (s.reg rr) s
    .ok (t.advance 2)

/-- POP: r gets the byte at SP, then SP + 1; PC + 2 (42_data_movement.md R193). -/
def execPop (r : Byte) (s : State) : Host.Outcome State Fault Refusal :=
  withReg r fun rr => do
    let (v, t) ← pop s
    .ok ((t.setReg rr v).advance 2)

end Sys2Proof.Machine
end

