-- ==== Sys2Proof/Machine/SystemIo.lean ====
section
/-! DEFINITION. HLT, PRN, PRA and IRET (44_system_io.md). -/

namespace Sys2Proof.Machine

/-- HLT: `run <- Halted(Hlt)`, then PC + 1 (44_system_io.md R240). -/
def execHlt (s : State) : Host.Outcome State Fault Refusal :=
  ofHandler (.ok ({ s with run := .halted .hlt }.advance 1))

/-- PRN: emit Dec(R[r]); PC + 2 (44_system_io.md R242). -/
def execPrn (r : Byte) (s : State) : Host.Outcome State Fault Refusal :=
  withReg r fun rr => .ok ((s.emit (.dec (s.reg rr))).advance 2)

/-- PRA: emit Chr(R[r]); PC + 2 (44_system_io.md R243). -/
def execPra (r : Byte) (s : State) : Host.Outcome State Fault Refusal :=
  withReg r fun rr => .ok ((s.emit (.chr (s.reg rr))).advance 2)

/-- IRET (44_system_io.md R245). -/
def execIret (s : State) : Host.Outcome State Fault Refusal :=
  ofHandler (returnFromInterrupt s)

end Sys2Proof.Machine
end

