-- ==== Sys2Proof/Machine/Iterate.lean ====
section
/-! DEFINITION. One loop iteration of the orchestrator (40_fetch_execute.md R123 to R129). -/

namespace Sys2Proof.Machine

/-- Read `n` bytes at increasing addresses from `a` (40_fetch_execute.md R125). -/
def fetchBytes : Nat → Nat → State → Except Fault (List Byte)
  | 0, _, _ => .ok []
  | n + 1, a, s => do
    let v ← memRead a s
    let rest ← fetchBytes n (a + 1) s
    .ok (v :: rest)

/-- Decode the fetched opcode, then fetch its operands, A then B: InvalidInstruction comes before any
operand is read (40_fetch_execute.md R124, R125). -/
def fetchInstr (op : Byte) (s : State) : Except Fault Instr :=
  match lookupOpcode op with
  | none => .error .invalidInstruction
  | some row => do
    let operands ← fetchBytes row.operands (s.pc + 1) s
    .ok (row.build (operands.getD 0 0#8) (operands.getD 1 0#8))

/-- The end of an iteration that began in state `start`: a raised fault commits nothing else
(40_fetch_execute.md R128, "on raise"). -/
def settle (start : State) (opcode : Option Byte) :
    Host.Outcome State Fault Refusal → Host.Outcome State Fault Refusal
  | .next t => .next t
  | .fault f => .next (takeFault start f opcode)
  | .refused r => .refused r

/-- Fetch, decode and execute the instruction at PC, in state `s`, of an iteration that began in state
`start` (40_fetch_execute.md R124 to R127). -/
def executeAtPc (start s : State) : Host.Outcome State Fault Refusal :=
  match memRead s.pc s with
  | .error f => settle start none (.fault f)
  | .ok op =>
    match fetchInstr op s with
    | .error f => settle start (some op) (.fault f)
    | .ok i => settle start (some op) (exec i s)

/-- One iteration of the Running state: timer check, then either one interrupt is taken, or the
instruction at PC is executed (40_fetch_execute.md R123, R128). -/
def iterate (start : State) : Host.Outcome State Fault Refusal :=
  match pendingLine (timerCheck start) with
  | some i => settle start none (ofHandler (enterInterrupt i (timerCheck start)))
  | none => executeAtPc start (timerCheck start)

end Sys2Proof.Machine
end

