-- ==== Sys2Proof/Machine/Ports.lean ====
section
/-! DEFINITION. The host ports: load, run and the reported outcome (00_scope.md R9; 40_fetch_execute.md
R120 to R122), and the placing of one instruction where the next iteration fetches. -/

namespace Sys2Proof.Machine

/-- What `load` reports to the host (40_fetch_execute.md R121). DESIGN CHOICE: the spec says only that a refusal is
reported; its two names are the model's (notes/assumptions/21.md), safe. -/
inductive LoadReport where
  /-- The bytes were written. -/
  | accepted
  /-- Refused: the state is not Idle. -/
  | notIdle
  /-- Refused: more than 256 bytes. -/
  | tooLong
deriving DecidableEq, Repr

/-- `load(bytes)`: accepted only in Idle and for at most 256 bytes; writes them from address 0, verbatim. A
refused load changes nothing (40_fetch_execute.md R121, D12; notes/assumptions/14.md). DESIGN CHOICE: a load that is
both outside Idle and too long, whose report the spec leaves open, is reported as `notIdle`
(notes/assumptions/21.md), unsafe for a claim about that report. -/
def load (bytes : List Byte) (s : State) : LoadReport × State :=
  if s.run ≠ .idle then (.notIdle, s)
  else if bytes.length > 256 then (.tooLong, s)
  else (.accepted, { s with mem := s.mem.writeBytes 0 bytes })

/-- `run()`: Idle becomes Running; in Halted it changes nothing (40_fetch_execute.md R120, R122, D13). DESIGN
CHOICE: called in Running, which the spec leaves open (R9, R122, D13 and N18 name Idle and Halted only), it
changes nothing (notes/assumptions/20.md), safe. -/
def hostRun (s : State) : State :=
  match s.run with
  | .idle => { s with run := .running }
  | .running => s
  | .halted _ => s

/-- What `run()` returns once the state is Halted (40_fetch_execute.md R122, R129). -/
def outcome (s : State) : Option RunOutcome :=
  match s.run with
  | .halted o => some o
  | _ => none

/-- Place an opcode-table word where the next iteration fetches (notes/assumptions/4.md): its three bytes
at PC (at 0, with PC there, where fewer than three bytes are left at PC), Running, no timer fire in that
iteration, and ie clear if a line is pending. -/
def placeFetchWord (s : State) (nbits w : Nat) : State :=
  let at_ := if s.pc ≤ 253 then s.pc else 0
  { s with
    mem := s.mem.writeBytes at_ (tableBytes nbits w)
    pc := at_
    run := .running
    timerInput := false :: s.timerInput
    ie := s.ie && (pendingLine s).isNone }

end Sys2Proof.Machine
end

