-- ==== Sys2Proof/Machine/Step.lean ====
section
/-! DEFINITION. One step: the transition of 40_fetch_execute.md R120 that the run state selects. -/

namespace Sys2Proof.Machine

/-- In Idle, the host's `run()` (notes/assumptions/3.md); in Running, one iteration (40_fetch_execute.md
R131); in Halted, which no transition leaves, nothing changes (R120, R122; notes/assumptions/14.md). -/
def step (s : State) : Host.Outcome State Fault Refusal :=
  match s.run with
  | .idle => .next (hostRun s)
  | .running => iterate s
  | .halted _ => .next s

/-- The state with one instruction placed so that the next step fetches and runs it. -/
def State.withFetchWord (s : State) (nbits w : Nat) : State := placeFetchWord s nbits w

end Sys2Proof.Machine
end

