-- ==== Sys2Proof/Safety.lean ====
section
/-! DEFINITION. What claims use: the invariant of every reachable state, the end of a run, and a run
without a fault. -/

namespace Sys2Proof.Safety

open Sys2Proof.Machine

/-- A fault record says what a fault of this core can say: it names the PC the state stands at, it is no
UnsupportedOperation, and an InvalidInstruction names an opcode outside the map (60_exceptions.md R302, R304,
R305, R306). -/
def RecordFits (s : State) (r : FaultRecord) : Prop :=
  r.pc = s.pc ∧ r.fault ≠ .unsupportedOperation ∧
    (r.fault = .invalidInstruction → ∃ op, r.opcode = some op ∧ lookupOpcode op = none)

/-- The invariant: memory is 256 canonical cells (20_memory.md R60), PC and SP are in [0,256] (10_state.md
R28, R36), and a recorded fault fits the state. -/
structure Inv (s : State) : Prop where
  mem_wf : s.mem.wf = true
  pc_le : s.pc ≤ 256
  sp_nonneg : 0 ≤ s.sp
  sp_le : s.sp ≤ 256
  record_fits : ∀ r, s.run = .halted (.fault r) → RecordFits s r

/-- The iteration from the running state `s` gets as far as executing `i`: no interrupt is taken, and the bytes at
PC, all inside memory, are `i` (40_fetch_execute.md R123 to R126). -/
def Executes (s : State) (i : Instr) : Prop :=
  pendingLine (timerCheck s) = none ∧ ∃ op, memRead s.pc s = .ok op ∧ fetchInstr op s = .ok i

/-- Something in the iteration from the running state `s` raises the fault `f`: interrupt entry, the opcode fetch,
decode or the operand fetch, or the handler (40_fetch_execute.md R128; 60_exceptions.md R301 to R304). -/
def Raises (s : State) (f : Fault) : Prop :=
  (∃ i, pendingLine (timerCheck s) = some i ∧ enterInterrupt i (timerCheck s) = .error f) ∨
  (pendingLine (timerCheck s) = none ∧ memRead s.pc s = .error f) ∨
  (pendingLine (timerCheck s) = none ∧ ∃ op, memRead s.pc s = .ok op ∧ fetchInstr op s = .error f) ∨
  ∃ i, Executes s i ∧ exec i (timerCheck s) = .fault f

/-- An outcome with its next state changed by `f`; a fault or a refusal as it is. -/
def mapNext (f : State → State) : Host.Outcome State Fault Refusal → Host.Outcome State Fault Refusal
  | .next s => .next (f s)
  | .fault r => .fault r
  | .refused r => .refused r

/-- The register operand an instruction writes, for the instructions that write one; IRET writes R0 to R6
and is not among them (10_state.md R26). -/
def destination : Instr → Option Byte
  | .hlt => none
  | .ldi r _ => some r
  | .prn _ => none
  | .pra _ => none
  | .add a _ => some a
  | .sub a _ => some a
  | .mul a _ => some a
  | .div a _ => some a
  | .mod a _ => some a
  | .cmp _ _ => none
  | .and a _ => some a
  | .or a _ => some a
  | .xor a _ => some a
  | .shl a _ => some a
  | .shr a _ => some a
  | .not a => some a
  | .push _ => none
  | .pop r => some r
  | .call _ => none
  | .ret => none
  | .jmp _ => none
  | .jeq _ => none
  | .jne _ => none
  | .jgt _ => none
  | .jge _ => none
  | .jlt _ => none
  | .jle _ => none
  | .st _ _ => none
  | .iret => none

/-- The address an instruction stores its byte to: ST at the address its register holds, PUSH and CALL at
SP − 1, the others nowhere (20_memory.md R61, R65). -/
def storeAddress (i : Instr) (s : State) : Option Nat :=
  match i with
  | .st a _ => (regOperand a).toOption.map fun ra => indirectAddress ra s
  | .push _ => some (s.sp - 1).toNat
  | .call _ => some (s.sp - 1).toNat
  | _ => none

/-- What the host can see of a finished run (40_fetch_execute.md R130). -/
structure Observation where
  mem : Memory
  regs : Vector Byte 8
  pc : Nat
  sp : Int
  fl : BitVec 3
  ie : Bool
  out : List OutputEvent
  outcome : RunOutcome
deriving DecidableEq, Repr

/-- The observation of a Halted state; none while the run goes on (40_fetch_execute.md R130). -/
def observe (s : State) : Option Observation :=
  (outcome s).map fun o => ⟨s.mem, s.regs, s.pc, s.sp, s.fl, s.ie, s.out, o⟩

/-- The state after `k` steps from `s`, where none of them stops the model. -/
def After (k : Nat) (s t : State) : Prop := Host.Core.run Sys2Proof.core k s = .next t

/-- The run from `s` ends in `t`: the first Halted state (40_fetch_execute.md R130). -/
def Ends (s t : State) : Prop :=
  ∃ k, After k s t ∧ outcome t ≠ none ∧ ∀ j < k, ∀ u, After j s u → outcome u = none

/-- A safe run from `s`: no state it reaches is halted by a fault. -/
def Safe (s : State) : Prop :=
  ∀ k t r, After k s t → t.run ≠ .halted (.fault r)

end Sys2Proof.Safety
end

