-- ==== Sys2Proof/Certificates/Slice0/Obligations.lean ====
section
/-! DEFINITION. The statements about the model, each a rule of spec/ or derived from its sections. -/

open Sys2Proof Sys2Proof.Machine Sys2Proof.Safety

/-! ### Encoding -/

/-- Decoding an encoded instruction gives it back, with every operand at every value, and leaves the bytes
after it (30_encoding.md, sections 1 to 3). -/
def Obligations.DecodeOfEncodeIsTheInstruction : Prop :=
  ∀ (i : Instr) (rest : List Byte), decode (encode i ++ rest) = .ok (i, rest)

/-- Bytes that decode are the encoding of what they decode to: no two encodings of one instruction, and no
bit dropped (30_encoding.md, sections 1 to 4). -/
def Obligations.DecodedBytesAreTheEncoding : Prop :=
  ∀ (bytes : List Byte) (i : Instr) (rest : List Byte),
    decode bytes = .ok (i, rest) → bytes = encode i ++ rest

/-- R97: the length is 1 + n, with n fixed by the opcode byte alone: decoding goes on exactly when n operand
bytes follow, consumes them, and gives an instruction of that length. -/
def Obligations.InstructionLengthFollowsFromTheOpcode : Prop :=
  ∀ (op : Byte) (row : OpcodeRow) (bytes : List Byte), lookupOpcode op = some row →
    (row.operands ≤ bytes.length ↔ ∃ i rest, decode (op :: bytes) = .ok (i, rest)) ∧
    ∀ i rest, decode (op :: bytes) = .ok (i, rest) →
      rest = bytes.drop row.operands ∧ lengthOf i = 1 + row.operands

/-- R96: decoding compares the whole opcode byte with the rows: the row found has that opcode byte, each of
the 29 rows is found by its own opcode byte, and an instruction decodes from its row's opcode only. -/
def Obligations.EachOpcodeHasExactlyOneRow : Prop :=
  (∀ op row, lookupOpcode op = some row → row ∈ opcodeMap ∧ row.opcode = op) ∧
  (∀ row ∈ opcodeMap, lookupOpcode row.opcode = some row ∧ row.operands ≤ 2 ∧
    ∀ a b, opcodeOf (row.build a b) = row.opcode) ∧
  opcodeMap.length = 29 ∧
  ((List.range 256).filter fun n => (lookupOpcode (BitVec.ofNat 8 n)).isNone).length = 227

/-- The opcode byte's layout AABCDDDD fits the table for every instruction: AA is the operand count and C is
set exactly for the rows that set PC themselves. The layout and the opcode bytes are from general knowledge
(notes/assumptions/1.md). -/
def Obligations.OpcodeBitsFitTheTable : Prop :=
  ∀ i : Instr, (opcodeOf i).toNat / 64 = lengthOf i - 1 ∧
    ((opcodeOf i).getLsbD 4 = true ↔ policyOf i ≠ .autoAdvance)

/-- Words written out from the spec's map and examples decode to the instructions they stand for. The opcode
bytes are the default OPCODE_MAP (notes/assumptions/1.md). -/
def Obligations.WordsOfTheTableDecode : Prop :=
  decode [0b10000010#8, 0#8, 8#8] = .ok (.ldi 0#8 8#8, []) ∧
  decode [0b10100000#8, 0#8, 1#8] = .ok (.add 0#8 1#8, []) ∧
  decode [0b10000100#8, 0#8, 1#8] = .ok (.st 0#8 1#8, []) ∧
  decode [0b01010000#8, 1#8] = .ok (.call 1#8, []) ∧
  decode [0b01000111#8, 0#8] = .ok (.prn 0#8, []) ∧
  decode [0b00010011#8] = .ok (.iret, []) ∧
  decode [0xFF#8] = .error (.invalidOpcode 0xFF#8)

/-! ### The step -/

/-- When the bytes at PC decode to an instruction and no interrupt is taken, the step is `exec` of it after
the timer check; a fault it raises leaves the state at the start of the iteration, Halted with the record
(40_fetch_execute.md, section 2; the state after a fault is decision D7, notes/assumptions/7.md, and the record
is decision D9, notes/assumptions/8.md). -/
def Obligations.StepRunsTheDecodedInstruction : Prop :=
  ∀ (s : State) (bytes : List Byte) (i : Instr),
    s.run = .running → pendingLine (timerCheck s) = none →
    decode bytes = .ok (i, []) → s.pc + bytes.length ≤ 256 →
    (∀ k (h : k < bytes.length), s.byteAt (s.pc + k) = bytes[k]) →
    (∀ t, exec i (timerCheck s) = .next t → step s = .next t) ∧
    (∀ f, exec i (timerCheck s) = .fault f →
      step s = .next { s with run := .halted (.fault ⟨f, s.pc, bytes.head?⟩) })

/-- An iteration takes the lowest pending line if ie is set and IM & IS is not 0, and then executes no
instruction; otherwise it executes the instruction at PC (40_fetch_execute.md section 2; 60_exceptions.md
section 3). The entry-fault clause is a choice: that the next state is the one at the start with only the run
state changed is decision D7 (notes/assumptions/7.md), and that the record has no opcode is decision D9
(60_exceptions.md section 1; notes/assumptions/8.md). The timer input is the model's form of decision D8
(notes/assumptions/2.md). -/
def Obligations.IterationTakesOneInterruptOrExecutes : Prop :=
  ∀ s : State, s.run = .running →
    ((timerCheck s).ie = true → (timerCheck s).im &&& (timerCheck s).is ≠ 0#8 →
      ∃ i : Line, ((timerCheck s).im &&& (timerCheck s).is).getLsbD i.val = true ∧
        (∀ j : Line, j < i → ((timerCheck s).im &&& (timerCheck s).is).getLsbD j.val = false) ∧
        (∀ t, enterInterrupt i (timerCheck s) = .ok t → step s = .next t) ∧
        (∀ f, enterInterrupt i (timerCheck s) = .error f →
          step s = .next { s with run := .halted (.fault ⟨f, s.pc, none⟩) })) ∧
    ((timerCheck s).ie = false ∨ (timerCheck s).im &&& (timerCheck s).is = 0#8 →
      step s = executeAtPc s (timerCheck s))

/-- Every step of every state gives a next state: no fault or refusal of the model is left over. That a fault
of the spec gives the Halted state is notes/assumptions/7.md; that Idle and Halted step at all is
notes/assumptions/3.md and notes/assumptions/14.md. -/
def Obligations.EveryStepGivesANextState : Prop :=
  ∀ s : State, ∃ t, step s = .next t

/-- The run states move as the table of 40_fetch_execute.md section 1 says: Idle to Running with nothing else
changed; a running iteration to Halted(Hlt) exactly if it executes HLT, to Halted(Fault) exactly if something it
does raises that fault, and otherwise to Running; Halted stays as it is. That an Idle step is the host's run() is
notes/assumptions/3.md, and that a Halted one changes nothing is notes/assumptions/14.md. -/
def Obligations.RunStateMovesOnlyAsTheTableSays : Prop :=
  ∀ s t : State, step s = .next t →
    (s.run = .idle → t = { s with run := .running }) ∧
    (s.run = .running →
      (t.run = .running ∨ t.run = .halted .hlt ∨ ∃ r, t.run = .halted (.fault r)) ∧
      (t.run = .halted .hlt ↔ Executes s .hlt ∧ exec .hlt (timerCheck s) = .next t) ∧
      (∀ f, (∃ r, t.run = .halted (.fault r) ∧ r.fault = f) ↔ Raises s f)) ∧
    (∀ o, s.run = .halted o → t = s)

/-- A faulting iteration commits nothing but the Halted state, and its record names the PC at its start
(60_exceptions.md section 1; decision D7, notes/assumptions/7.md, and for the record decision D9,
notes/assumptions/8.md). -/
def Obligations.FaultingIterationCommitsNothing : Prop :=
  ∀ (s t : State) (r : FaultRecord), s.run = .running → step s = .next t → t.run = .halted (.fault r) →
    t = { s with run := .halted (.fault r) } ∧ r.pc = s.pc

/-- R304: an opcode byte outside the map, fetched when no interrupt is taken, halts with InvalidInstruction
and its opcode and PC, and the run goes no further; 0xFF is outside the map, and so are 227 bytes. -/
def Obligations.InvalidOpcodeHalts : Prop :=
  (∀ s : State, s.run = .running → pendingLine (timerCheck s) = none → s.pc ≤ 255 →
    lookupOpcode (s.byteAt s.pc) = none →
    ∃ t, step s = .next t ∧
      t.run = .halted (.fault ⟨.invalidInstruction, s.pc, some (s.byteAt s.pc)⟩) ∧
      ∀ k, Sys2Proof.core.run k t = .next t) ∧
  lookupOpcode 0xFF#8 = none ∧
  ((List.range 256).filter fun n => (lookupOpcode (BitVec.ofNat 8 n)).isNone).length = 227

/-- A fetch that needs the byte at 256 faults with BoundsFault(mem(256)): at PC = 256 with no opcode
recorded; for an operand with the opcode recorded, and before any operand's register index is checked
(40_fetch_execute.md section 2; 60_exceptions.md section 1). The order is decision D10 (notes/assumptions/9.md);
that only the run state changes, the timer update dropped, is decision D7 (notes/assumptions/7.md); and that the
record has the fetched opcode, or none, is decision D9 (notes/assumptions/8.md): all three are choices. -/
def Obligations.FetchPastTheEndFaults : Prop :=
  ∀ s : State, s.run = .running → pendingLine (timerCheck s) = none →
    (s.pc = 256 →
      step s = .next { s with run := .halted (.fault ⟨.bounds (.mem 256), 256, none⟩) }) ∧
    (∀ row, s.pc ≤ 255 → lookupOpcode (s.byteAt s.pc) = some row → 255 < s.pc + row.operands →
      step s =
        .next { s with run := .halted (.fault ⟨.bounds (.mem 256), s.pc, some (s.byteAt s.pc)⟩) })

/-- R129: HLT, and no other instruction, makes the run state Halted(Hlt); a fault of any kind, raised by the
opcode fetch, by decode or operand fetch, by the handler or by interrupt entry, makes it
Halted(Fault(kind, pc, opcode)), with the fetched opcode if there is one; after Halted no iteration runs. -/
def Obligations.HltAndFaultsEndTheRun : Prop :=
  (∀ s : State, ∃ t, exec .hlt s = .next t ∧ t.run = .halted .hlt) ∧
  (∀ (i : Instr) (s t : State), i ≠ .hlt → exec i s = .next t → t.run = s.run) ∧
  (∀ (s : State) (f : Fault), s.run = .running →
    (pendingLine (timerCheck s) = none → memRead s.pc s = .error f →
      ∃ t o, step s = .next t ∧ t.run = .halted (.fault ⟨f, s.pc, o⟩)) ∧
    (∀ op, pendingLine (timerCheck s) = none → memRead s.pc s = .ok op →
      (fetchInstr op s = .error f ∨ ∃ i, fetchInstr op s = .ok i ∧ exec i (timerCheck s) = .fault f) →
      ∃ t, step s = .next t ∧ t.run = .halted (.fault ⟨f, s.pc, some op⟩)) ∧
    (∀ i, pendingLine (timerCheck s) = some i → enterInterrupt i (timerCheck s) = .error f →
      ∃ t o, step s = .next t ∧ t.run = .halted (.fault ⟨f, s.pc, o⟩))) ∧
  (∀ (s : State) (o : RunOutcome) (k : Nat), s.run = .halted o → Sys2Proof.core.run k s = .next s)

/-- The end of a run is one state: two ends of one run are equal, and from the end on every longer run stands
there (40_fetch_execute.md sections 1 and 2). -/
def Obligations.EndOfRunIsUniqueAndLasting : Prop :=
  ∀ s t : State, Ends s t → (∀ u, Ends s u → u = t) ∧ ∃ k, ∀ j, After (k + j) s t

/-! ### Operands and faults -/

/-- R21: a register-index operand above 7 raises BoundsFault, whatever the state, so before the handler reads or
writes any register; an instruction whose indices are all 0 to 7 never raises it. -/
def Obligations.RegisterIndexAboveSevenFaults : Prop :=
  ∀ (i : Instr) (s : State),
    ((∃ x ∈ i.registerOperands, 8 ≤ x.toNat) →
      ∃ x ∈ i.registerOperands, 8 ≤ x.toNat ∧ ∀ t, exec i t = .fault (.bounds (.reg x.toNat))) ∧
    (i.wf = true → ∀ n, exec i s ≠ .fault (.bounds (.reg n)))

/-- Of the register-index operands above 7, the first in the order A, B is the one reported, also by a
conditional jump that is not taken (40_fetch_execute.md section 2; decisions D10, D14, notes/assumptions/9.md). -/
def Obligations.FirstBadRegisterOperandIsReported : Prop :=
  ∀ (i : Instr) (s : State) (x : Byte),
    i.registerOperands.find? (fun y => decide (8 ≤ y.toNat)) = some x →
      exec i s = .fault (.bounds (.reg x.toNat))

/-- R303: DIV and MOD raise ArithmeticFault when the divisor register holds 0, no other instruction and no
other divisor does; the iteration that executes it halts with it, and the run does not continue. -/
def Obligations.DivideByZeroIsArithmeticFault : Prop :=
  (∀ (a b : RegIndex) (s : State), s.reg b = 0#8 →
    exec (.div (regByte a) (regByte b)) s = .fault (.arithmetic .div) ∧
    exec (.mod (regByte a) (regByte b)) s = .fault (.arithmetic .mod)) ∧
  (∀ (i : Instr) (s : State) (k : DivideKind), exec i s = .fault (.arithmetic k) →
    ∃ a b : RegIndex, s.reg b = 0#8 ∧
      ((k = .div ∧ i = .div (regByte a) (regByte b)) ∨ (k = .mod ∧ i = .mod (regByte a) (regByte b)))) ∧
  (∀ (s : State) (op : Byte) (i : Instr) (k : DivideKind), s.run = .running →
    pendingLine (timerCheck s) = none → memRead s.pc s = .ok op → fetchInstr op s = .ok i →
    exec i (timerCheck s) = .fault (.arithmetic k) →
    ∃ t, step s = .next t ∧ t.run = .halted (.fault ⟨.arithmetic k, s.pc, some op⟩) ∧
      ∀ n, Sys2Proof.core.run n t = .next t)

/-- The ALU fails with UnsupportedOperation exactly outside its table of 12 operation codes, and no
instruction raises it, nor does interrupt entry (41_alu.md section 1; 60_exceptions.md section 1). That an
operation code is the opcode byte is notes/assumptions/15.md. -/
def Obligations.UnsupportedOperationIsNeverRaised : Prop :=
  (∀ op x y : Byte, alu op x y = .error .unsupportedOperation ↔
    op ∉ [0xA0#8, 0xA1#8, 0xA2#8, 0xA3#8, 0xA4#8, 0xA7#8, 0xA8#8, 0xAA#8, 0xAB#8, 0xAC#8, 0xAD#8, 0x69#8]) ∧
  (∀ (i : Instr) (s : State), exec i s ≠ .fault .unsupportedOperation) ∧
  (∀ (i : Line) (s : State), enterInterrupt i s ≠ .error .unsupportedOperation)

/-- An access at an address below 0 or above 255 raises BoundsFault and nothing is read or written; the
address is used as it is, never modulo 256; inside, a read gives the byte there, and a write changes that
byte and no other. In a state of the invariant, an instruction's access is out of range only at −1, for PUSH and
CALL, and at 256, for POP, RET and IRET, never for ST; interrupt entry's only at −1, so its vector read never
(20_memory.md section 1; SP is an integer by decision D4, notes/assumptions/10.md). -/
def Obligations.MemoryBoundsPolicy : Prop :=
  (∀ (a : Int) (v : Byte) (s : State),
    (a < 0 ∨ 255 < a → memRead a s = .error (.bounds (.mem a)) ∧ memWrite a v s = .error (.bounds (.mem a))) ∧
    (0 ≤ a → a ≤ 255 → s.mem.wf = true →
      memRead a s = .ok (s.byteAt a.toNat) ∧
      ∃ t, memWrite a v s = .ok t ∧ t = { s with mem := t.mem } ∧ t.mem.wf = true ∧
        t.byteAt a.toNat = v ∧ ∀ b, b ≠ a.toNat → t.byteAt b = s.byteAt b)) ∧
  (∀ (i : Instr) (s : State) (a : Int), Inv s → exec i s = .fault (.bounds (.mem a)) →
    (a = -1 ∧ ((∃ r, i = .push r) ∨ ∃ r, i = .call r)) ∨
    (a = 256 ∧ ((∃ r, i = .pop r) ∨ i = .ret ∨ i = .iret))) ∧
  (∀ (i : Line) (s : State) (a : Int), Inv s → enterInterrupt i s = .error (.bounds (.mem a)) → a = -1)

/-! ### The ALU -/

/-- ADD, SUB and MUL complete with the exact result modulo 256 in register a, PC + 3, and nothing else changed;
both operands are the old values, also where a = b (41_alu.md sections 1 and 2). -/
def Obligations.AddSubMulResults : Prop :=
  ∀ (a b : RegIndex) (s : State),
    exec (.add (regByte a) (regByte b)) s = .next { s with
      regs := s.regs.set a.val (BitVec.ofNat 8 (((s.reg a).toNat + (s.reg b).toNat) % 256)), pc := s.pc + 3 } ∧
    exec (.sub (regByte a) (regByte b)) s = .next { s with
      regs := s.regs.set a.val (BitVec.ofNat 8 ((256 + (s.reg a).toNat - (s.reg b).toNat) % 256)),
      pc := s.pc + 3 } ∧
    exec (.mul (regByte a) (regByte b)) s = .next { s with
      regs := s.regs.set a.val (BitVec.ofNat 8 ((s.reg a).toNat * (s.reg b).toNat % 256)), pc := s.pc + 3 }

/-- R165: for a divisor that is not 0, DIV and MOD complete with the floor quotient and the remainder
x − y·floor(x/y), which the quotient times the divisor makes up to x; for a divisor of 0 both raise
ArithmeticFault. -/
def Obligations.DivModResults : Prop :=
  ∀ (a b : RegIndex) (s : State),
    (s.reg b ≠ 0#8 → ∃ q r : Byte,
      exec (.div (regByte a) (regByte b)) s = .next { s with regs := s.regs.set a.val q, pc := s.pc + 3 } ∧
      exec (.mod (regByte a) (regByte b)) s = .next { s with regs := s.regs.set a.val r, pc := s.pc + 3 } ∧
      q.toNat = (s.reg a).toNat / (s.reg b).toNat ∧
      r.toNat = (s.reg a).toNat - (s.reg b).toNat * ((s.reg a).toNat / (s.reg b).toNat) ∧
      q.toNat * (s.reg b).toNat + r.toNat = (s.reg a).toNat ∧ r.toNat < (s.reg b).toNat) ∧
    (s.reg b = 0#8 →
      exec (.div (regByte a) (regByte b)) s = .fault (.arithmetic .div) ∧
      exec (.mod (regByte a) (regByte b)) s = .fault (.arithmetic .mod))

/-- AND, OR, XOR and NOT complete with the bitwise result in register a, bit by bit; PC + 3, or + 2 for NOT;
nothing else changed (41_alu.md section 3). -/
def Obligations.BitwiseResults : Prop :=
  ∀ (a b : RegIndex) (s : State), ∃ vand vor vxor vnot : Byte,
    exec (.and (regByte a) (regByte b)) s = .next { s with regs := s.regs.set a.val vand, pc := s.pc + 3 } ∧
    exec (.or (regByte a) (regByte b)) s = .next { s with regs := s.regs.set a.val vor, pc := s.pc + 3 } ∧
    exec (.xor (regByte a) (regByte b)) s = .next { s with regs := s.regs.set a.val vxor, pc := s.pc + 3 } ∧
    exec (.not (regByte a)) s = .next { s with regs := s.regs.set a.val vnot, pc := s.pc + 2 } ∧
    vnot.toNat = 255 - (s.reg a).toNat ∧
    ∀ k < 8,
      vand.getLsbD k = ((s.reg a).getLsbD k && (s.reg b).getLsbD k) ∧
      vor.getLsbD k = ((s.reg a).getLsbD k || (s.reg b).getLsbD k) ∧
      vxor.getLsbD k = ((s.reg a).getLsbD k ^^ (s.reg b).getLsbD k) ∧
      vnot.getLsbD k = !(s.reg a).getLsbD k

/-- SHL and SHR complete with x·2^y modulo 256 and x div 2^y, which are 0 for a count of 8 or more; PC + 3;
nothing else changed (41_alu.md section 3). -/
def Obligations.ShiftResults : Prop :=
  ∀ (a b : RegIndex) (s : State), ∃ left right : Byte,
    exec (.shl (regByte a) (regByte b)) s = .next { s with regs := s.regs.set a.val left, pc := s.pc + 3 } ∧
    exec (.shr (regByte a) (regByte b)) s = .next { s with regs := s.regs.set a.val right, pc := s.pc + 3 } ∧
    left.toNat = (s.reg a).toNat * 2 ^ (s.reg b).toNat % 256 ∧
    right.toNat = (s.reg a).toNat / 2 ^ (s.reg b).toNat ∧
    (8 ≤ (s.reg b).toNat → left = 0#8 ∧ right = 0#8)

/-- CMP completes with FL = E, L or G by the unsigned comparison, exactly one bit, PC + 3, and no register or
anything else changed (41_alu.md section 4). -/
def Obligations.CmpSetsExactlyOneFlag : Prop :=
  ∀ (a b : RegIndex) (s : State), ∃ fl : BitVec 3,
    exec (.cmp (regByte a) (regByte b)) s = .next { s with fl := fl, pc := s.pc + 3 } ∧
    (flagE fl = true ↔ (s.reg a).toNat = (s.reg b).toNat) ∧
    (flagL fl = true ↔ (s.reg a).toNat < (s.reg b).toNat) ∧
    (flagG fl = true ↔ (s.reg b).toNat < (s.reg a).toNat) ∧
    (fl = 0b001#3 ∨ fl = 0b010#3 ∨ fl = 0b100#3)

/-- ADD, then SUB with the same b, gives register a its old value back, with every other register as it was
(41_alu.md section 5). -/
def Obligations.AddThenSubRestores : Prop :=
  ∀ (a b : RegIndex) (s : State), a ≠ b →
    ∃ t, exec (.add (regByte a) (regByte b)) s = .next t ∧
      exec (.sub (regByte a) (regByte b)) t = .next { s with pc := s.pc + 6 }

/-! ### Data movement -/

/-- LDI completes with the immediate byte in r, R5, R6 and R7 like any other, PC + 3, and nothing else
changed: SP stays, also for R7 (42_data_movement.md section 2; the split of SP and R7 is decision D3,
notes/assumptions/11.md). -/
def Obligations.LdiLoadsTheImmediate : Prop :=
  ∀ (r : RegIndex) (v : Byte) (s : State),
    exec (.ldi (regByte r) v) s = .next { s with regs := s.regs.set r.val v, pc := s.pc + 3 }

/-- ST completes, storing the byte of R[b] at the address in R[a] and no other byte, PC + 3, and nothing else
changed (42_data_movement.md section 2). -/
def Obligations.StStoresOneByte : Prop :=
  ∀ (a b : RegIndex) (s : State), s.mem.wf = true →
    ∃ t, exec (.st (regByte a) (regByte b)) s = .next t ∧
      t = { s with mem := t.mem, pc := s.pc + 3 } ∧
      t.byteAt (indirectAddress a s) = s.reg b ∧
      ∀ x, x ≠ indirectAddress a s → t.byteAt x = s.byteAt x

/-- PUSH completes for SP in [1,256]: the value of r is stored at SP − 1, SP falls by 1, PC + 2, no other byte
and nothing else changes; otherwise it raises BoundsFault at SP − 1 (42_data_movement.md section 2; SP is an
integer by decision D4, notes/assumptions/10.md). -/
def Obligations.PushStoresBelowSp : Prop :=
  ∀ (r : RegIndex) (s : State), s.mem.wf = true →
    (1 ≤ s.sp → s.sp ≤ 256 →
      ∃ t, exec (.push (regByte r)) s = .next t ∧
        t = { s with mem := t.mem, sp := s.sp - 1, pc := s.pc + 2 } ∧
        t.byteAt (s.sp - 1).toNat = s.reg r ∧
        ∀ x, x ≠ (s.sp - 1).toNat → t.byteAt x = s.byteAt x) ∧
    (s.sp < 1 ∨ 256 < s.sp → exec (.push (regByte r)) s = .fault (.bounds (.mem (s.sp - 1))))

/-- POP completes for SP in [0,255]: r gets the byte at SP, SP rises by 1, PC + 2, memory and everything else
as before; otherwise it raises BoundsFault at SP (42_data_movement.md section 2; decision D4,
notes/assumptions/10.md). -/
def Obligations.PopLoadsFromSp : Prop :=
  ∀ (r : RegIndex) (s : State),
    (0 ≤ s.sp → s.sp ≤ 255 →
      exec (.pop (regByte r)) s = .next { s with
        regs := s.regs.set r.val (s.byteAt s.sp.toNat), sp := s.sp + 1, pc := s.pc + 2 }) ∧
    (s.sp < 0 ∨ 255 < s.sp → exec (.pop (regByte r)) s = .fault (.bounds (.mem s.sp)))

/-- PUSH r, then POP r2, leaves SP unchanged and gives r2 the old value of r, for SP in [1,256]; the cell
below SP keeps the value (42_data_movement.md section 2, the stack balance law). -/
def Obligations.PushThenPopMovesTheValue : Prop :=
  ∀ (r r2 : RegIndex) (s : State), s.mem.wf = true → 1 ≤ s.sp → s.sp ≤ 256 →
    ∃ t u, exec (.push (regByte r)) s = .next t ∧ exec (.pop (regByte r2)) t = .next u ∧
      u = { s with mem := u.mem, regs := s.regs.set r2.val (s.reg r), pc := s.pc + 4 } ∧
      u.byteAt (s.sp - 1).toNat = s.reg r ∧
      ∀ x, x ≠ (s.sp - 1).toNat → u.byteAt x = s.byteAt x

/-! ### Control flow -/

/-- CALL completes for PC + 2 in [0,255] and SP in [1,256]: the return address PC + 2 is stored at SP − 1,
SP falls by 1, PC is the value of the register, no other byte and nothing else changes. A return address
above 255 raises BoundsFault(retaddr), before the stack's own BoundsFault (43_control_flow.md section 2;
decisions D4, D5, notes/assumptions/10.md). -/
def Obligations.CallPushesTheReturnAddress : Prop :=
  ∀ (a : RegIndex) (s : State), s.mem.wf = true →
    (s.pc + 2 ≤ 255 → 1 ≤ s.sp → s.sp ≤ 256 →
      ∃ t, exec (.call (regByte a)) s = .next t ∧
        t = { s with mem := t.mem, sp := s.sp - 1, pc := (s.reg a).toNat } ∧
        (t.byteAt (s.sp - 1).toNat).toNat = s.pc + 2 ∧
        ∀ x, x ≠ (s.sp - 1).toNat → t.byteAt x = s.byteAt x) ∧
    (255 < s.pc + 2 → exec (.call (regByte a)) s = .fault (.bounds (.retaddr (s.pc + 2)))) ∧
    (s.pc + 2 ≤ 255 → (s.sp < 1 ∨ 256 < s.sp) →
      exec (.call (regByte a)) s = .fault (.bounds (.mem (s.sp - 1))))

/-- RET completes for SP in [0,255]: PC gets the byte at SP, SP rises by 1, everything else as before (ie
too); otherwise it raises BoundsFault at SP (43_control_flow.md section 2; decision D4,
notes/assumptions/10.md). -/
def Obligations.RetPopsThePc : Prop :=
  ∀ s : State,
    (0 ≤ s.sp → s.sp ≤ 255 →
      exec .ret s = .next { s with pc := (s.byteAt s.sp.toNat).toNat, sp := s.sp + 1 }) ∧
    (s.sp < 0 ∨ 255 < s.sp → exec .ret s = .fault (.bounds (.mem s.sp)))

/-- CALL at PC ≤ 253 with SP in [1,256], then RET in any state that has SP and the byte there as CALL left
them, returns to PC + 2 with the old SP (43_control_flow.md section 2, the call-return law). -/
def Obligations.CallThenRetReturns : Prop :=
  ∀ (a : RegIndex) (s : State), s.mem.wf = true → s.pc ≤ 253 → 1 ≤ s.sp → s.sp ≤ 256 →
    ∃ t, exec (.call (regByte a)) s = .next t ∧ t.pc = (s.reg a).toNat ∧
      ∀ h : State, h.sp = t.sp → h.byteAt h.sp.toNat = t.byteAt t.sp.toNat →
        exec .ret h = .next { h with pc := s.pc + 2, sp := s.sp }

/-- JMP completes with PC the value of the register and nothing else changed (43_control_flow.md
section 2). -/
def Obligations.JmpSetsThePc : Prop :=
  ∀ (a : RegIndex) (s : State), exec (.jmp (regByte a)) s = .next { s with pc := (s.reg a).toNat }

/-- Each conditional jump completes: PC is the value of the register where its condition of FL holds, else
PC + 2, and nothing else changes (43_control_flow.md section 3). The conditions of JNE, JGE and JLE are from
general knowledge (notes/assumptions/13.md). -/
def Obligations.ConditionalJumpsReadTheFlags : Prop :=
  ∀ (a : RegIndex) (s : State),
    exec (.jeq (regByte a)) s = .next { s with
      pc := if s.fl.getLsbD 0 = true then (s.reg a).toNat else s.pc + 2 } ∧
    exec (.jne (regByte a)) s = .next { s with
      pc := if s.fl.getLsbD 0 = false then (s.reg a).toNat else s.pc + 2 } ∧
    exec (.jgt (regByte a)) s = .next { s with
      pc := if s.fl.getLsbD 2 = true then (s.reg a).toNat else s.pc + 2 } ∧
    exec (.jge (regByte a)) s = .next { s with
      pc := if s.fl.getLsbD 2 = true ∨ s.fl.getLsbD 0 = true then (s.reg a).toNat else s.pc + 2 } ∧
    exec (.jlt (regByte a)) s = .next { s with
      pc := if s.fl.getLsbD 1 = true then (s.reg a).toNat else s.pc + 2 } ∧
    exec (.jle (regByte a)) s = .next { s with
      pc := if s.fl.getLsbD 1 = true ∨ s.fl.getLsbD 0 = true then (s.reg a).toNat else s.pc + 2 }

/-- After a CMP each conditional jump is taken exactly when the unsigned comparison its name says holds
(41_alu.md section 4; 43_control_flow.md section 3). -/
def Obligations.JumpAfterCompareFollowsTheComparison : Prop :=
  ∀ (a b c : RegIndex) (s : State), ∃ t, exec (.cmp (regByte a) (regByte b)) s = .next t ∧
    exec (.jeq (regByte c)) t = .next { t with
      pc := if (s.reg a).toNat = (s.reg b).toNat then (s.reg c).toNat else s.pc + 5 } ∧
    exec (.jne (regByte c)) t = .next { t with
      pc := if (s.reg a).toNat ≠ (s.reg b).toNat then (s.reg c).toNat else s.pc + 5 } ∧
    exec (.jgt (regByte c)) t = .next { t with
      pc := if (s.reg b).toNat < (s.reg a).toNat then (s.reg c).toNat else s.pc + 5 } ∧
    exec (.jge (regByte c)) t = .next { t with
      pc := if (s.reg b).toNat ≤ (s.reg a).toNat then (s.reg c).toNat else s.pc + 5 } ∧
    exec (.jlt (regByte c)) t = .next { t with
      pc := if (s.reg a).toNat < (s.reg b).toNat then (s.reg c).toNat else s.pc + 5 } ∧
    exec (.jle (regByte c)) t = .next { t with
      pc := if (s.reg a).toNat ≤ (s.reg b).toNat then (s.reg c).toNat else s.pc + 5 }

/-- R127: after an instruction that completes, an auto-advance row has PC + 1 + n, HLT among them; an explicit
row has the PC its handler set (JMP and CALL the register's value, RET and IRET the popped byte); a
conditional jump has its register's value if its condition of FL holds, and PC + 2 if not. -/
def Obligations.PcFollowsTheRowsPolicy : Prop :=
  (∀ (i : Instr) (s t : State), exec i s = .next t →
    (policyOf i = .autoAdvance → t.pc = s.pc + lengthOf i) ∧
    (policyOf i = .explicit →
      (∃ r : RegIndex, (i = .jmp (regByte r) ∨ i = .call (regByte r)) ∧ t.pc = (s.reg r).toNat) ∨
      (i = .ret ∧ t.pc = (s.byteAt s.sp.toNat).toNat) ∨
      (i = .iret ∧ t.pc = (s.byteAt (s.sp + 8).toNat).toNat))) ∧
  (∀ i : Instr, policyOf i = .whenTaken → ∃ (a : Byte) (taken : BitVec 3 → Bool),
    i.registerOperands = [a] ∧ ∀ s t : State, exec i s = .next t →
      ∃ r : RegIndex, a = regByte r ∧ t.pc = if taken s.fl then (s.reg r).toNat else s.pc + 2)

/-! ### Halt, output, interrupts -/

/-- HLT completes with run = Halted(Hlt) and PC + 1, and nothing else changed (44_system_io.md section 1). -/
def Obligations.HltHaltsAndAdvances : Prop :=
  ∀ s : State, exec .hlt s = .next { s with run := .halted .hlt, pc := s.pc + 1 }

/-- PRN and PRA complete, appending Dec(R[r]) and Chr(R[r]) to the output, PC + 2, and nothing else changed
(44_system_io.md section 2; the event form is decision D11, notes/assumptions/16.md). -/
def Obligations.PrintsEmitTheRegister : Prop :=
  ∀ (r : RegIndex) (s : State),
    exec (.prn (regByte r)) s = .next { s with out := s.out ++ [.dec (s.reg r)], pc := s.pc + 2 } ∧
    exec (.pra (regByte r)) s = .next { s with out := s.out ++ [.chr (s.reg r)], pc := s.pc + 2 }

/-- The timer check: a fire sets IS bit 0, whatever ie and IM, and changes no other bit, register or state; a
fire on a set bit changes nothing; without a fire no register changes (60_exceptions.md section 2, decision
D8). The two timer fields are the model's own (notes/assumptions/2.md). -/
def Obligations.TimerCheckSetsOnlyIsBitZero : Prop :=
  ∀ s : State,
    (timerCheck s = { s with
      regs := (timerCheck s).regs, timerInput := (timerCheck s).timerInput, draws := (timerCheck s).draws }) ∧
    (s.timerFire = false → (timerCheck s).regs = s.regs) ∧
    (s.timerFire = true →
      (∀ r : RegIndex, r ≠ 6 → (timerCheck s).reg r = s.reg r) ∧
      (timerCheck s).is.getLsbD 0 = true ∧
      (∀ k, 1 ≤ k → (timerCheck s).is.getLsbD k = s.is.getLsbD k) ∧
      (s.is.getLsbD 0 = true → (timerCheck s).regs = s.regs))

/-- Interrupt entry for PC ≤ 255 and SP in [9,256]: ie is cleared, bit i of IS is cleared, PC, FL and R0 to R6
(R6 with the bit clear) lie at SP − 1 down to SP − 9, SP falls by 9, PC is the byte at 0xF8 + i after the
pushes; R7, IM, FL, the other bytes and everything else as before (60_exceptions.md section 3; decisions D2,
D4, D5, notes/assumptions/10.md and notes/assumptions/12.md). -/
def Obligations.InterruptEntrySavesNineBytes : Prop :=
  ∀ (i : Line) (s : State), s.mem.wf = true → s.pc ≤ 255 → 9 ≤ s.sp → s.sp ≤ 256 →
    ∃ t, enterInterrupt i s = .ok t ∧
      t = { s with
        mem := t.mem, regs := s.regs.set 6 t.is, sp := s.sp - 9, ie := false,
        pc := (t.byteAt (0xF8 + i.val)).toNat } ∧
      (∀ k < 8, t.is.getLsbD k = (s.is.getLsbD k && decide (k ≠ i.val))) ∧
      (t.byteAt (s.sp - 1).toNat).toNat = s.pc ∧
      (t.byteAt (s.sp - 2).toNat).toNat = s.fl.toNat ∧
      (∀ r : RegIndex, r.val ≤ 6 → t.byteAt (s.sp - 3 - r.val).toNat = t.reg r) ∧
      (∀ x : Nat, (x : Int) < s.sp - 9 ∨ s.sp ≤ x → t.byteAt x = s.byteAt x)

/-- Interrupt entry faults in two cases: a saved PC above 255 is BoundsFault(retaddr), and an SP of 0 to 8 with
a PC in range is BoundsFault(mem(−1)) (60_exceptions.md section 3; decision D5, notes/assumptions/10.md). -/
def Obligations.InterruptEntryFaults : Prop :=
  ∀ (i : Line) (s : State),
    (255 < s.pc → enterInterrupt i s = .error (.bounds (.retaddr s.pc))) ∧
    (s.pc ≤ 255 → 0 ≤ s.sp → s.sp < 9 → enterInterrupt i s = .error (.bounds (.mem (-1))))

/-- IRET completes for SP in [0,247]: R6 down to R0, FL (bits 2:0) and PC are the nine bytes from SP up, SP
rises by 9, ie is set; R7, memory and everything else as before. For SP in [248,256] it raises BoundsFault at
256 (44_system_io.md section 3; decisions D2, D4, notes/assumptions/10.md and notes/assumptions/12.md). -/
def Obligations.IretPopsNineBytes : Prop :=
  ∀ s : State,
    (0 ≤ s.sp → s.sp ≤ 247 →
      ∃ t, exec .iret s = .next t ∧
        t = { s with
          regs := t.regs, fl := t.fl, sp := s.sp + 9, ie := true,
          pc := (s.byteAt (s.sp + 8).toNat).toNat } ∧
        (∀ r : RegIndex, r.val ≤ 6 → t.reg r = s.byteAt (s.sp + 6 - r.val).toNat) ∧
        t.reg 7 = s.reg 7 ∧
        t.fl.toNat = (s.byteAt (s.sp + 7).toNat).toNat % 8) ∧
    (248 ≤ s.sp → s.sp ≤ 256 → exec .iret s = .fault (.bounds (.mem 256)))

/-- Interrupt entry, then IRET in any state that a handler leaves with SP and the nine saved bytes as entry left
them, restores PC, FL, SP, and R0 to R6 (R6 with the taken bit clear, whatever the handler or the timer wrote
to it meanwhile), sets ie, and leaves the handler's memory, R7 and output alone (44_system_io.md section 3;
60_exceptions.md sections 3 and 4; 70_reset_and_hazards.md section 3; decisions D2, D5). -/
def Obligations.IretUndoesInterruptEntry : Prop :=
  ∀ (i : Line) (s : State), s.mem.wf = true → s.pc ≤ 255 → 9 ≤ s.sp → s.sp ≤ 256 →
    ∃ t, enterInterrupt i s = .ok t ∧
      ∀ h : State, h.sp = t.sp →
        (∀ x : Nat, t.sp ≤ x → (x : Int) < s.sp → h.byteAt x = t.byteAt x) →
        ∃ u, exec .iret h = .next u ∧
          u = { h with regs := u.regs, pc := s.pc, fl := s.fl, sp := s.sp, ie := true } ∧
          (∀ r : RegIndex, r.val ≤ 5 → u.reg r = s.reg r) ∧
          (∀ k < 8, u.is.getLsbD k = (s.is.getLsbD k && decide (k ≠ i.val))) ∧
          u.reg 7 = h.reg 7

/-! ### Who may touch what -/

/-- CMP sets exactly one bit of FL and clears the others, IRET loads FL from the stack; no other
instruction writes it, and interrupt entry and the timer check do not; the conditional jumps read it, interrupt
entry pushes it, and no other instruction reads it: what one does is the same for every FL
(10_state.md section 3; FL's form on the stack is decision D2, notes/assumptions/12.md). -/
def Obligations.FlagsWritersAndReaders : Prop :=
  (∀ (i : Instr) (s : State) (fl : BitVec 3), (∀ a b, i ≠ .cmp a b) → i ≠ .iret →
    policyOf i ≠ .whenTaken →
    exec i { s with fl := fl } = mapNext (fun t => { t with fl := fl }) (exec i s)) ∧
  (∀ (i : Instr) (s t : State), policyOf i = .whenTaken → exec i s = .next t → t.fl = s.fl) ∧
  (∀ i : Instr, policyOf i = .whenTaken → i.wf = true → ∃ (s : State) (fl : BitVec 3),
    exec i { s with fl := fl } ≠ mapNext (fun t => { t with fl := fl }) (exec i s)) ∧
  (∀ (a b : Byte) (s t : State), exec (.cmp a b) s = .next t → t.fl = 1#3 ∨ t.fl = 2#3 ∨ t.fl = 4#3) ∧
  (∀ (s : State) (i : Instr) (fl : BitVec 3), i = .iret ∨ (∃ a b, i = .cmp a b) →
    exec i { s with fl := fl } = exec i s) ∧
  (∀ s t : State, exec .iret s = .next t → t.fl = flagsOfByte (s.byteAt (s.sp + 7).toNat)) ∧
  (∀ (i : Line) (s t : State), s.mem.wf = true → enterInterrupt i s = .ok t →
    t.fl = s.fl ∧ (t.byteAt (s.sp - 2).toNat).toNat = s.fl.toNat) ∧
  (∀ s : State, (timerCheck s).fl = s.fl)

/-- R37: PUSH and CALL move SP by −1, POP and RET by +1, IRET by +9, interrupt entry by −9; no other instruction
reads or writes SP, and the timer check does not: what it does is the same for every SP. -/
def Obligations.SpWritersAndReaders : Prop :=
  (∀ (i : Instr) (s : State) (sp : Int), (∀ r, i ≠ .push r) → (∀ r, i ≠ .pop r) → (∀ a, i ≠ .call a) →
    i ≠ .ret → i ≠ .iret →
    exec i { s with sp := sp } = mapNext (fun t => { t with sp := sp }) (exec i s)) ∧
  (∀ (i : Instr) (s t : State), exec i s = .next t →
    ((∃ r, i = .push r) ∨ (∃ a, i = .call a) → t.sp = s.sp - 1) ∧
    ((∃ r, i = .pop r) ∨ i = .ret → t.sp = s.sp + 1) ∧
    (i = .iret → t.sp = s.sp + 9)) ∧
  (∀ (i : Line) (s t : State), enterInterrupt i s = .ok t → t.sp = s.sp - 9) ∧
  (∀ (s : State) (sp : Int), timerCheck { s with sp := sp } = { timerCheck s with sp := sp })

/-- R38: ie is set at reset; interrupt entry clears it; IRET sets it; no other instruction writes it, and no
instruction reads it: what it does is the same for either value; and a step that turns ie on is an IRET. -/
def Obligations.InterruptEnableWriters : Prop :=
  State.reset.ie = true ∧
  (∀ (i : Line) (s t : State), enterInterrupt i s = .ok t → t.ie = false) ∧
  (∀ s t : State, exec .iret s = .next t → t.ie = true) ∧
  (∀ (s : State) (ie : Bool), exec .iret { s with ie := ie } = exec .iret s) ∧
  (∀ (i : Instr) (s : State) (ie : Bool), i ≠ .iret →
    exec i { s with ie := ie } = mapNext (fun t => { t with ie := ie }) (exec i s)) ∧
  (∀ s t : State, step s = .next t → s.ie = false → t.ie = true → exec .iret (timerCheck s) = .next t)

/-- R41: the output is empty at reset; only PRN and PRA append to it, one event each, and nothing takes from
it: no other instruction reads or writes it, the timer check and interrupt entry leave it, and a step that
changes it is the execution of a PRN or PRA, which appends one event at its end. -/
def Obligations.OnlyPrintsAppendToTheOutput : Prop :=
  State.reset.out = [] ∧
  (∀ (i : Instr) (s : State) (out : List OutputEvent), (∀ r, i ≠ .prn r) → (∀ r, i ≠ .pra r) →
    exec i { s with out := out } = mapNext (fun t => { t with out := out }) (exec i s)) ∧
  (∀ (r : Byte) (s t : State), exec (.prn r) s = .next t ∨ exec (.pra r) s = .next t →
    ∃ e, t.out = s.out ++ [e]) ∧
  (∀ s : State, (timerCheck s).out = s.out) ∧
  (∀ (i : Line) (s t : State), enterInterrupt i s = .ok t → t.out = s.out) ∧
  (∀ s t : State, step s = .next t → t.out ≠ s.out → ∃ (i : Instr) (r : Byte) (e : OutputEvent),
    (i = .prn r ∨ i = .pra r) ∧ Executes s i ∧ exec i (timerCheck s) = .next t ∧ t.out = s.out ++ [e])

/-- An instruction that completes changes no general register but the one it names as its destination; IRET
changes R0 to R6 only (10_state.md section 1). -/
def Obligations.OnlyTheDestinationRegisterChanges : Prop :=
  ∀ (i : Instr) (s t : State), exec i s = .next t →
    (i ≠ .iret → ∀ r : RegIndex, destination i ≠ some (regByte r) → t.reg r = s.reg r) ∧
    (i = .iret → t.reg 7 = s.reg 7)

/-- An instruction that completes changes no byte of memory but the one ST, PUSH or CALL stores to; the others
change none (20_memory.md sections 1 and 2). -/
def Obligations.OnlyTheStoredByteChanges : Prop :=
  ∀ (i : Instr) (s t : State), exec i s = .next t →
    ∀ x, storeAddress i s ≠ some x → t.byteAt x = s.byteAt x

/-- The timer reaches an instruction only through IS: what an instruction does is the same for every timer
input to come (60_exceptions.md section 2). The two fields are the model's own (notes/assumptions/2.md), and
this holds for every value of them. -/
def Obligations.TimerInputReachesNoInstruction : Prop :=
  ∀ (i : Instr) (s : State) (input : List Bool) (draws : Nat),
    exec i { s with timerInput := input, draws := draws } =
      mapNext (fun t => { t with timerInput := input, draws := draws }) (exec i s)

/-- A store is seen by the very next fetch: whatever byte v an ST writes just after itself, the next iteration, if
it takes no interrupt, fetches v as its opcode, executes the instruction of v and the bytes after it, and records
v if it faults; a v that is HLT's opcode halts it with Hlt, and one outside the map halts it with
InvalidInstruction (20_memory.md section 4). What a faulting iteration leaves and records is decisions D7 and D9
(notes/assumptions/7.md, notes/assumptions/8.md). -/
def Obligations.StoredOpcodeIsFetchedNext : Prop :=
  ∀ (s : State) (a b : RegIndex) (v : Byte), s.run = .running → s.mem.wf = true →
    Executes s (.st (regByte a) (regByte b)) →
    ((timerCheck s).reg a).toNat = s.pc + 3 → (timerCheck s).reg b = v →
    ∃ t, step s = .next t ∧ t.pc = s.pc + 3 ∧ (pendingLine (timerCheck t) = none →
      memRead t.pc (timerCheck t) = .ok v ∧ step t = executeAtPc t (timerCheck t) ∧
      (lookupOpcode v = none →
        step t = .next { t with run := .halted (.fault ⟨.invalidInstruction, s.pc + 3, some v⟩) }) ∧
      (∀ row, lookupOpcode v = some row → s.pc + 3 + row.operands ≤ 255 → ∃ i, Executes t i ∧
        i = row.build (t.byteAt (s.pc + 4)) (t.byteAt (s.pc + 5)) ∧ opcodeOf i = v ∧
        (∀ u, exec i (timerCheck t) = .next u → step t = .next u) ∧
        ∀ f, exec i (timerCheck t) = .fault f →
          step t = .next { t with run := .halted (.fault ⟨f, s.pc + 3, some v⟩) }) ∧
      (v = opcodeOf .hlt → ∃ u, step t = .next u ∧ u.run = .halted .hlt ∧ u.pc = s.pc + 4))

/-! ### Reset, the host ports and the invariant -/

/-- Reset leaves memory zero, R7 and SP at 0xF4, PC 0, ie set, Idle, no output (70_reset_and_hazards.md
section 1); R0 to R6 and FL are 0 by the spec's decision D6 (notes/assumptions/5.md). -/
def Obligations.ResetState : Prop :=
  (∀ a, State.reset.byteAt a = 0#8) ∧ (∀ r : RegIndex, State.reset.reg r = if r = 7 then 0xF4#8 else 0#8) ∧
  State.reset.pc = 0 ∧ State.reset.sp = 0xF4 ∧ State.reset.fl = 0#3 ∧ State.reset.ie = true ∧
  State.reset.run = .idle ∧ State.reset.out = []

/-- load(bytes) is accepted exactly in Idle for at most 256 bytes; then cell k holds byte k, the cells from the
length on keep their value, and nothing else changes; a refused load changes nothing
(40_fetch_execute.md section 1; the refusals are decision D12, notes/assumptions/14.md; the names of the two
reports, and notIdle for a load that is also too long, are the model's choice, notes/assumptions/21.md). -/
def Obligations.LoadWritesTheBytesVerbatim : Prop :=
  ∀ (bytes : List Byte) (s : State), s.mem.wf = true →
    (s.run = .idle → bytes.length ≤ 256 → ∃ t, load bytes s = (.accepted, t) ∧
      t = { s with mem := t.mem } ∧ t.mem.wf = true ∧
      (∀ k (h : k < bytes.length), t.byteAt k = bytes[k]) ∧
      (∀ a, bytes.length ≤ a → t.byteAt a = s.byteAt a)) ∧
    (s.run ≠ .idle → load bytes s = (.notIdle, s)) ∧
    (s.run = .idle → 256 < bytes.length → load bytes s = (.tooLong, s))

/-- run() moves Idle to Running and changes nothing else; in Halted it changes nothing and the recorded outcome
is what the host gets (40_fetch_execute.md section 1; decision D13, notes/assumptions/14.md; that a step in
Idle is run() is notes/assumptions/3.md). -/
def Obligations.RunPortStartsTheCore : Prop :=
  ∀ s : State,
    (s.run = .idle → hostRun s = { s with run := .running } ∧ step s = .next (hostRun s)) ∧
    (∀ o, s.run = .halted o → hostRun s = s ∧ outcome s = some o) ∧
    (s.run = .idle ∨ s.run = .running → outcome s = none)

/-- Reset meets the invariant, whose clauses rest on the choices that EveryStepKeepsTheInvariant names
(70_reset_and_hazards.md section 1; 20_memory.md section 1). -/
def Obligations.ResetMeetsTheInvariant : Prop := Inv State.reset

/-- Every step keeps the invariant: memory canonical and 256 cells, PC and SP in [0,256], and a recorded fault
that names the PC the state stands at, is no UnsupportedOperation, and names an opcode outside the map if it
is InvalidInstruction (10_state.md sections 2 and 4; 20_memory.md section 1; 60_exceptions.md section 1). Its
clauses rest on choices: that PC and SP lie in [0,256] on decisions D4 and D5 (notes/assumptions/10.md), that the
state after a fault keeps its PC on decision D7 (notes/assumptions/7.md), the record on decision D9
(notes/assumptions/8.md); and canonical memory is the model's form of the 256 cells (notes/assumptions/19.md). -/
def Obligations.EveryStepKeepsTheInvariant : Prop :=
  ∀ s t : State, Inv s → step s = .next t → Inv t
end

