-- ==== Sys2Proof/Laws/Memory.lean ====
section
/-! SUPPORT. The laws of memory: read after write, and the canonical form. -/

namespace Sys2Proof.Machine

/-- The canonical form, one cell at a time. -/
theorem wf_cons {k : Nat} {v : Byte} {rest : Memory} :
    Memory.wf ((k, v) :: rest) = true ↔
      k < 256 ∧ v ≠ 0#8 ∧ (∀ c ∈ rest, k < c.1) ∧ Memory.wf rest = true := by
  simp [Memory.wf, and_assoc]

/-- An address below every listed one reads 0. -/
theorem read_below {m : Memory} {a : Nat} (h : ∀ c ∈ m, a < c.1) : Memory.read m a = 0#8 := by
  induction m with
  | nil => rfl
  | cons c rest ih =>
    have hc := h c (by simp)
    rw [Memory.read, if_neg (by omega)]
    exact ih fun d hd => h d (by simp [hd])

/-- The write adds no address but the one written. -/
theorem mem_write {m : Memory} {a : Nat} {v : Byte} {c : Host.Cell} (h : c ∈ Memory.write m a v) :
    c ∈ m ∨ c = (a, v) := by
  induction m with
  | nil =>
    simp only [Memory.write] at h
    split at h <;> simp_all
  | cons d rest ih =>
    simp only [Memory.write] at h
    split at h
    · split at h
      · exact .inl h
      · simpa [or_comm, or_left_comm] using h
    · split at h
      · split at h
        · exact .inl (by simp [h])
        · simp only [List.mem_cons] at h ⊢
          tauto
      · simp only [List.mem_cons] at h ⊢
        rcases h with h | h
        · exact .inl (.inl h)
        · rcases ih h with h | h
          · exact .inl (.inr h)
          · exact .inr h

/-- Every write inside the 256 cells keeps the canonical form. -/
theorem write_wf {m : Memory} {a : Nat} {v : Byte} (h : Memory.wf m = true) (ha : a < 256) :
    Memory.wf (Memory.write m a v) = true := by
  induction m with
  | nil =>
    simp only [Memory.write]
    split
    · rfl
    · next hv => exact wf_cons.mpr ⟨ha, hv, by simp, rfl⟩
  | cons c rest ih =>
    obtain ⟨k, u⟩ := c
    obtain ⟨hk, hu, hlt, hrest⟩ := wf_cons.mp h
    simp only [Memory.write]
    split
    · next hak =>
      split
      · exact h
      · next hv =>
        refine wf_cons.mpr ⟨ha, hv, ?_, h⟩
        intro c hc
        rcases List.mem_cons.mp hc with rfl | hc
        · exact hak
        · exact lt_trans hak (hlt c hc)
    · split
      · next hak =>
        split
        · exact hrest
        · next hv => exact wf_cons.mpr ⟨ha, hv, fun c hc => hak ▸ hlt c hc, hrest⟩
      · next h1 h2 =>
        refine wf_cons.mpr ⟨hk, hu, ?_, ih hrest⟩
        intro c hc
        rcases mem_write hc with hc | rfl
        · exact hlt c hc
        · simp only; omega

/-- Read after write at another address. -/
theorem read_write_other {m : Memory} {a b : Nat} {v : Byte} (h : b ≠ a) :
    Memory.read (Memory.write m a v) b = Memory.read m b := by
  induction m with
  | nil =>
    simp only [Memory.write]
    split
    · rfl
    · simp [Memory.read, Ne.symm h]
  | cons c rest ih =>
    obtain ⟨k, u⟩ := c
    simp only [Memory.write]
    split
    · split
      · rfl
      · rw [Memory.read, if_neg (Ne.symm h)]
    · split
      · next _ hak =>
        subst hak
        split <;> simp [Memory.read, Ne.symm h]
      · simp only [Memory.read, ih]

/-- Read after write at the address written. -/
theorem read_write_same {m : Memory} {a : Nat} {v : Byte} (h : Memory.wf m = true) :
    Memory.read (Memory.write m a v) a = v := by
  induction m with
  | nil =>
    simp only [Memory.write]
    split
    · next hv => rw [hv]; rfl
    · simp [Memory.read]
  | cons c rest ih =>
    obtain ⟨k, u⟩ := c
    obtain ⟨-, -, hlt, hrest⟩ := wf_cons.mp h
    simp only [Memory.write]
    split
    · next hak =>
      split
      · next hv =>
        rw [hv]
        apply read_below
        intro c hc
        rcases List.mem_cons.mp hc with rfl | hc
        · exact hak
        · exact lt_trans hak (hlt c hc)
      · simp [Memory.read]
    · split
      · next hak =>
        subst hak
        split
        · next hv => rw [hv]; exact read_below hlt
        · simp [Memory.read]
      · next h1 h2 =>
        rw [Memory.read, if_neg (by omega)]
        exact ih hrest

/-- Both cases of read after write. -/
theorem read_write {m : Memory} {a b : Nat} {v : Byte} (h : Memory.wf m = true) :
    Memory.read (Memory.write m a v) b = if b = a then v else Memory.read m b := by
  split
  · next e => rw [e]; exact read_write_same h
  · next e => exact read_write_other e

/-- Nothing is listed outside the 256 cells. -/
theorem read_outside {m : Memory} {a : Nat} (h : Memory.wf m = true) (ha : 256 ≤ a) :
    Memory.read m a = 0#8 := by
  induction m with
  | nil => rfl
  | cons c rest ih =>
    obtain ⟨k, u⟩ := c
    obtain ⟨hk, -, -, hrest⟩ := wf_cons.mp h
    rw [Memory.read, if_neg (by omega)]
    exact ih hrest

/-- Storing bytes inside the 256 cells keeps the canonical form. -/
theorem writeBytes_wf {bytes : List Byte} : ∀ {m : Memory} {a : Nat}, Memory.wf m = true →
    a + bytes.length ≤ 256 → Memory.wf (Memory.writeBytes m a bytes) = true := by
  induction bytes with
  | nil => intro m a h _; exact h
  | cons v rest ih =>
    intro m a h ha
    simp only [List.length_cons] at ha
    exact ih (write_wf h (by omega)) (by omega)

/-- Storing bytes leaves every address outside them alone. -/
theorem read_writeBytes_outside {bytes : List Byte} : ∀ {m : Memory} {a b : Nat},
    (b < a ∨ a + bytes.length ≤ b) → Memory.read (Memory.writeBytes m a bytes) b = Memory.read m b := by
  induction bytes with
  | nil => intro m a b _; rfl
  | cons v rest ih =>
    intro m a b h
    simp only [List.length_cons] at h
    rw [Memory.writeBytes, ih (by omega), read_write_other (by omega)]

/-- Stored bytes are read back in order. -/
theorem read_writeBytes {bytes : List Byte} : ∀ {m : Memory} {a k : Nat}, Memory.wf m = true →
    a + bytes.length ≤ 256 → (hk : k < bytes.length) →
    Memory.read (Memory.writeBytes m a bytes) (a + k) = bytes[k] := by
  induction bytes with
  | nil => intro m a k _ _ hk; simp at hk
  | cons v rest ih =>
    intro m a k h ha hk
    simp only [List.length_cons] at ha hk
    rw [Memory.writeBytes]
    cases k with
    | zero =>
      rw [read_writeBytes_outside (by omega)]
      simpa using read_write_same h
    | succ k =>
      have := ih (m := Memory.write m a v) (a := a + 1) (k := k) (write_wf h (by omega)) (by omega) (by omega)
      rw [show a + (k + 1) = a + 1 + k by omega, this]
      simp

/-- Two canonical memories that read alike are equal. -/
theorem eq_of_read_eq {m : Memory} : ∀ {n : Memory}, Memory.wf m = true → Memory.wf n = true →
    (∀ a, Memory.read m a = Memory.read n a) → m = n := by
  induction m with
  | nil =>
    intro n _ hn h
    cases n with
    | nil => rfl
    | cons c rest =>
      obtain ⟨k, u⟩ := c
      have := h k
      simp only [Memory.read, if_true] at this
      exact absurd this.symm (wf_cons.mp hn).2.1
  | cons c rest ih =>
    intro n hm hn h
    obtain ⟨k, u⟩ := c
    obtain ⟨-, hu, hlt, hrest⟩ := wf_cons.mp hm
    cases n with
    | nil =>
      have := h k
      simp only [Memory.read, if_true] at this
      exact absurd this hu
    | cons d tail =>
      obtain ⟨l, w⟩ := d
      obtain ⟨-, hw, hlt', htail⟩ := wf_cons.mp hn
      have hkl : k = l := by
        rcases Nat.lt_trichotomy k l with hkl | hkl | hkl
        · have := h k
          rw [Memory.read, if_pos rfl, read_below] at this
          · exact absurd this hu
          · intro c hc
            rcases List.mem_cons.mp hc with rfl | hc
            · exact hkl
            · exact lt_trans hkl (hlt' c hc)
        · exact hkl
        · have := h l
          rw [read_below, Memory.read, if_pos rfl] at this
          · exact absurd this.symm hw
          · intro c hc
            rcases List.mem_cons.mp hc with rfl | hc
            · exact hkl
            · exact lt_trans hkl (hlt c hc)
      subst hkl
      have huw : u = w := by simpa [Memory.read] using h k
      subst huw
      congr 1
      apply ih hrest htail
      intro a
      by_cases hak : k = a
      · subst hak
        rw [read_below hlt, read_below hlt']
      · simpa [Memory.read, hak] using h a

end Sys2Proof.Machine
end

