-- ==== Sys2Proof/Laws/State.lean ====
section
/-! SUPPORT. One lemma per field per update of the state, and the register file's laws. -/

namespace Sys2Proof.Machine

variable (s : State) (r q : RegIndex) (v : Byte) (n : Nat) (e : OutputEvent)

@[simp] theorem reg_setReg_same : (s.setReg r v).reg r = v := by
  simp [State.reg, State.setReg]

theorem reg_setReg_other (h : q ≠ r) : (s.setReg r v).reg q = s.reg q := by
  have hv : r.val ≠ q.val := fun e => h (Fin.ext e.symm)
  simp [State.reg, State.setReg, Vector.getElem_set_ne _ _ hv]

theorem reg_setReg : (s.setReg r v).reg q = if q = r then v else s.reg q := by
  split
  · next h => rw [h, reg_setReg_same]
  · next h => exact reg_setReg_other s r q v h

@[simp] theorem setReg_mem : (s.setReg r v).mem = s.mem := rfl
@[simp] theorem setReg_regs : (s.setReg r v).regs = s.regs.set r.val v := rfl
@[simp] theorem setReg_pc : (s.setReg r v).pc = s.pc := rfl
@[simp] theorem setReg_fl : (s.setReg r v).fl = s.fl := rfl
@[simp] theorem setReg_sp : (s.setReg r v).sp = s.sp := rfl
@[simp] theorem setReg_ie : (s.setReg r v).ie = s.ie := rfl
@[simp] theorem setReg_run : (s.setReg r v).run = s.run := rfl
@[simp] theorem setReg_out : (s.setReg r v).out = s.out := rfl
@[simp] theorem setReg_timerInput : (s.setReg r v).timerInput = s.timerInput := rfl
@[simp] theorem setReg_draws : (s.setReg r v).draws = s.draws := rfl
@[simp] theorem setReg_byteAt (a : Nat) : (s.setReg r v).byteAt a = s.byteAt a := rfl

@[simp] theorem advance_mem : (s.advance n).mem = s.mem := rfl
@[simp] theorem advance_regs : (s.advance n).regs = s.regs := rfl
@[simp] theorem advance_reg : (s.advance n).reg r = s.reg r := rfl
@[simp] theorem advance_pc : (s.advance n).pc = s.pc + n := rfl
@[simp] theorem advance_fl : (s.advance n).fl = s.fl := rfl
@[simp] theorem advance_sp : (s.advance n).sp = s.sp := rfl
@[simp] theorem advance_ie : (s.advance n).ie = s.ie := rfl
@[simp] theorem advance_run : (s.advance n).run = s.run := rfl
@[simp] theorem advance_out : (s.advance n).out = s.out := rfl
@[simp] theorem advance_timerInput : (s.advance n).timerInput = s.timerInput := rfl
@[simp] theorem advance_draws : (s.advance n).draws = s.draws := rfl
@[simp] theorem advance_byteAt (a : Nat) : (s.advance n).byteAt a = s.byteAt a := rfl

@[simp] theorem emit_mem : (s.emit e).mem = s.mem := rfl
@[simp] theorem emit_regs : (s.emit e).regs = s.regs := rfl
@[simp] theorem emit_reg : (s.emit e).reg r = s.reg r := rfl
@[simp] theorem emit_pc : (s.emit e).pc = s.pc := rfl
@[simp] theorem emit_fl : (s.emit e).fl = s.fl := rfl
@[simp] theorem emit_sp : (s.emit e).sp = s.sp := rfl
@[simp] theorem emit_ie : (s.emit e).ie = s.ie := rfl
@[simp] theorem emit_run : (s.emit e).run = s.run := rfl
@[simp] theorem emit_out : (s.emit e).out = s.out ++ [e] := rfl
@[simp] theorem emit_timerInput : (s.emit e).timerInput = s.timerInput := rfl
@[simp] theorem emit_draws : (s.emit e).draws = s.draws := rfl
@[simp] theorem emit_byteAt (a : Nat) : (s.emit e).byteAt a = s.byteAt a := rfl

@[simp] theorem jumpTo_mem : (s.jumpTo r).mem = s.mem := rfl
@[simp] theorem jumpTo_regs : (s.jumpTo r).regs = s.regs := rfl
@[simp] theorem jumpTo_reg : (s.jumpTo r).reg q = s.reg q := rfl
@[simp] theorem jumpTo_pc : (s.jumpTo r).pc = (s.reg r).toNat := rfl
@[simp] theorem jumpTo_fl : (s.jumpTo r).fl = s.fl := rfl
@[simp] theorem jumpTo_sp : (s.jumpTo r).sp = s.sp := rfl
@[simp] theorem jumpTo_ie : (s.jumpTo r).ie = s.ie := rfl
@[simp] theorem jumpTo_run : (s.jumpTo r).run = s.run := rfl
@[simp] theorem jumpTo_out : (s.jumpTo r).out = s.out := rfl
@[simp] theorem jumpTo_timerInput : (s.jumpTo r).timerInput = s.timerInput := rfl
@[simp] theorem jumpTo_draws : (s.jumpTo r).draws = s.draws := rfl
@[simp] theorem jumpTo_byteAt (a : Nat) : (s.jumpTo r).byteAt a = s.byteAt a := rfl

@[simp] theorem acknowledge_mem (i : Line) : (acknowledge i s).mem = s.mem := rfl
@[simp] theorem acknowledge_pc (i : Line) : (acknowledge i s).pc = s.pc := rfl
@[simp] theorem acknowledge_fl (i : Line) : (acknowledge i s).fl = s.fl := rfl
@[simp] theorem acknowledge_sp (i : Line) : (acknowledge i s).sp = s.sp := rfl
@[simp] theorem acknowledge_ie (i : Line) : (acknowledge i s).ie = false := rfl
@[simp] theorem acknowledge_run (i : Line) : (acknowledge i s).run = s.run := rfl
@[simp] theorem acknowledge_out (i : Line) : (acknowledge i s).out = s.out := rfl
@[simp] theorem acknowledge_timerInput (i : Line) : (acknowledge i s).timerInput = s.timerInput := rfl
@[simp] theorem acknowledge_draws (i : Line) : (acknowledge i s).draws = s.draws := rfl
@[simp] theorem acknowledge_byteAt (i : Line) (a : Nat) : (acknowledge i s).byteAt a = s.byteAt a := rfl

@[simp] theorem nextTimerInput_mem : s.nextTimerInput.mem = s.mem := by
  unfold State.nextTimerInput; split <;> rfl
@[simp] theorem nextTimerInput_regs : s.nextTimerInput.regs = s.regs := by
  unfold State.nextTimerInput; split <;> rfl
@[simp] theorem nextTimerInput_pc : s.nextTimerInput.pc = s.pc := by
  unfold State.nextTimerInput; split <;> rfl
@[simp] theorem nextTimerInput_fl : s.nextTimerInput.fl = s.fl := by
  unfold State.nextTimerInput; split <;> rfl
@[simp] theorem nextTimerInput_sp : s.nextTimerInput.sp = s.sp := by
  unfold State.nextTimerInput; split <;> rfl
@[simp] theorem nextTimerInput_ie : s.nextTimerInput.ie = s.ie := by
  unfold State.nextTimerInput; split <;> rfl
@[simp] theorem nextTimerInput_run : s.nextTimerInput.run = s.run := by
  unfold State.nextTimerInput; split <;> rfl
@[simp] theorem nextTimerInput_out : s.nextTimerInput.out = s.out := by
  unfold State.nextTimerInput; split <;> rfl

/-- Everything the timer check can do: it writes R6 and the timer fields, nothing else. -/
theorem timerCheck_eq : timerCheck s =
    { s with
      regs := if s.timerFire then s.regs.set 6 (s.is ||| 0x01#8) else s.regs
      timerInput := s.nextTimerInput.timerInput
      draws := s.nextTimerInput.draws } := by
  unfold timerCheck State.nextTimerInput State.timerFire
  cases s.timerInput <;> simp only <;> split <;> rfl

@[simp] theorem timerCheck_mem : (timerCheck s).mem = s.mem := by rw [timerCheck_eq]
@[simp] theorem timerCheck_pc : (timerCheck s).pc = s.pc := by rw [timerCheck_eq]
@[simp] theorem timerCheck_fl : (timerCheck s).fl = s.fl := by rw [timerCheck_eq]
@[simp] theorem timerCheck_sp : (timerCheck s).sp = s.sp := by rw [timerCheck_eq]
@[simp] theorem timerCheck_ie : (timerCheck s).ie = s.ie := by rw [timerCheck_eq]
@[simp] theorem timerCheck_run : (timerCheck s).run = s.run := by rw [timerCheck_eq]
@[simp] theorem timerCheck_out : (timerCheck s).out = s.out := by rw [timerCheck_eq]
@[simp] theorem timerCheck_byteAt (a : Nat) : (timerCheck s).byteAt a = s.byteAt a := by
  rw [State.byteAt, timerCheck_mem, State.byteAt]

@[simp] theorem takeFault_mem (f : Fault) (o : Option Byte) : (takeFault s f o).mem = s.mem := rfl
@[simp] theorem takeFault_regs (f : Fault) (o : Option Byte) : (takeFault s f o).regs = s.regs := rfl
@[simp] theorem takeFault_pc (f : Fault) (o : Option Byte) : (takeFault s f o).pc = s.pc := rfl
@[simp] theorem takeFault_fl (f : Fault) (o : Option Byte) : (takeFault s f o).fl = s.fl := rfl
@[simp] theorem takeFault_sp (f : Fault) (o : Option Byte) : (takeFault s f o).sp = s.sp := rfl
@[simp] theorem takeFault_ie (f : Fault) (o : Option Byte) : (takeFault s f o).ie = s.ie := rfl
@[simp] theorem takeFault_run (f : Fault) (o : Option Byte) :
    (takeFault s f o).run = .halted (.fault ⟨f, s.pc, o⟩) := rfl
@[simp] theorem takeFault_out (f : Fault) (o : Option Byte) : (takeFault s f o).out = s.out := rfl

@[simp] theorem regByte_toNat : (regByte r).toNat = r.val := by
  have := r.isLt; simp [regByte]; omega

/-- A legal operand byte names its register. -/
@[simp] theorem regOperand_regByte : regOperand (regByte r) = .ok r := by
  simp [regOperand, r.isLt]

/-- Everything the register check can answer. -/
theorem regOperand_cases (x : Byte) :
    (∃ q : RegIndex, x = regByte q ∧ regOperand x = .ok q) ∨
      (8 ≤ x.toNat ∧ regOperand x = .error (.bounds (.reg x.toNat))) := by
  by_cases h : x.toNat < 8
  · exact .inl ⟨⟨x.toNat, h⟩, by apply BitVec.eq_of_toNat_eq; simp, by simp [regOperand, h]⟩
  · exact .inr ⟨by omega, by simp [regOperand, h]⟩

end Sys2Proof.Machine
end

