-- ==== Sys2Proof/Laws/Ops.lean ====
section
/-! SUPPORT. One lemma for each shared operation that says once everything it can do. -/

namespace Sys2Proof.Machine

@[simp] theorem ofHandler_ok (t : State) : ofHandler (.ok t) = .next t := rfl
@[simp] theorem ofHandler_error (f : Fault) : ofHandler (.error f) = .fault f := rfl

theorem ofHandler_next {x : Except Fault State} {t : State} (h : ofHandler x = .next t) : x = .ok t := by
  cases x with
  | error f => cases h
  | ok u => cases h; rfl

theorem ofHandler_fault {x : Except Fault State} {f : Fault} (h : ofHandler x = .fault f) : x = .error f := by
  cases x with
  | error g => cases h; rfl
  | ok u => cases h

theorem ofHandler_not_refused {x : Except Fault State} {r : Refusal} : ofHandler x ≠ .refused r := by
  cases x <;> intro h <;> cases h

/-- A handler that goes on was reached through a value and went on. -/
theorem bind_ok {α β : Type} {x : Except Fault α} {g : α → Except Fault β} {b : β}
    (h : (x >>= g) = .ok b) : ∃ a, x = .ok a ∧ g a = .ok b := by
  cases x with
  | error f => cases h
  | ok a => exact ⟨a, rfl, h⟩

/-- A handler that raises a fault raised it at once, or after a value. -/
theorem bind_error {α β : Type} {x : Except Fault α} {g : α → Except Fault β} {f : Fault}
    (h : (x >>= g) = .error f) : x = .error f ∨ ∃ a, x = .ok a ∧ g a = .error f := by
  cases x with
  | error e => cases h; exact .inl rfl
  | ok a => exact .inr ⟨a, rfl, h⟩

@[simp] theorem bind_ok_eq {α β : Type} (a : α) (g : α → Except Fault β) :
    ((Except.ok a : Except Fault α) >>= g) = g a := rfl
@[simp] theorem bind_error_eq {α β : Type} (f : Fault) (g : α → Except Fault β) :
    ((Except.error f : Except Fault α) >>= g) = .error f := rfl

@[simp] theorem withReg_regByte (r : RegIndex) (g : RegIndex → Except Fault State) :
    withReg (regByte r) g = ofHandler (g r) := by simp [withReg]

@[simp] theorem withRegs_regByte (a b : RegIndex) (g : RegIndex → RegIndex → Except Fault State) :
    withRegs (regByte a) (regByte b) g = ofHandler (g a b) := by simp [withRegs]

theorem withReg_next {x : Byte} {g : RegIndex → Except Fault State} {t : State}
    (h : withReg x g = .next t) : ∃ r, x = regByte r ∧ g r = .ok t := by
  rcases regOperand_cases x with ⟨r, rfl, -⟩ | ⟨-, e⟩
  · exact ⟨r, rfl, ofHandler_next (by simpa using h)⟩
  · simp [withReg, e] at h

theorem withRegs_next {x y : Byte} {g : RegIndex → RegIndex → Except Fault State} {t : State}
    (h : withRegs x y g = .next t) : ∃ a b, x = regByte a ∧ y = regByte b ∧ g a b = .ok t := by
  rcases regOperand_cases x with ⟨a, rfl, -⟩ | ⟨-, e⟩
  · rcases regOperand_cases y with ⟨b, rfl, -⟩ | ⟨-, e⟩
    · exact ⟨a, b, rfl, rfl, ofHandler_next (by simpa using h)⟩
    · simp [withRegs, e] at h
  · simp [withRegs, e] at h

theorem withReg_fault {x : Byte} {g : RegIndex → Except Fault State} {f : Fault}
    (h : withReg x g = .fault f) :
    (8 ≤ x.toNat ∧ f = .bounds (.reg x.toNat)) ∨ ∃ r, x = regByte r ∧ g r = .error f := by
  rcases regOperand_cases x with ⟨r, rfl, -⟩ | ⟨hx, e⟩
  · exact .inr ⟨r, rfl, ofHandler_fault (by simpa using h)⟩
  · simp only [withReg, e, bind_error_eq, ofHandler_error, Host.Outcome.fault.injEq] at h
    exact .inl ⟨hx, h.symm⟩

theorem withRegs_fault {x y : Byte} {g : RegIndex → RegIndex → Except Fault State} {f : Fault}
    (h : withRegs x y g = .fault f) :
    (8 ≤ x.toNat ∧ f = .bounds (.reg x.toNat)) ∨
      (x.toNat < 8 ∧ 8 ≤ y.toNat ∧ f = .bounds (.reg y.toNat)) ∨
      ∃ a b, x = regByte a ∧ y = regByte b ∧ g a b = .error f := by
  rcases regOperand_cases x with ⟨a, rfl, -⟩ | ⟨hx, e⟩
  · rcases regOperand_cases y with ⟨b, rfl, -⟩ | ⟨hy, e⟩
    · exact .inr (.inr ⟨a, b, rfl, rfl, ofHandler_fault (by simpa using h)⟩)
    · simp only [withRegs, regOperand_regByte, bind_ok_eq, e, bind_error_eq, ofHandler_error,
        Host.Outcome.fault.injEq] at h
      exact .inr (.inl ⟨by simp, hy, h.symm⟩)
  · simp only [withRegs, e, bind_error_eq, ofHandler_error, Host.Outcome.fault.injEq] at h
    exact .inl ⟨hx, h.symm⟩

/-- The first of one or two register operands that is above 7 is the fault. -/
theorem withReg_bad {x : Byte} {g : RegIndex → Except Fault State} (h : 8 ≤ x.toNat) :
    withReg x g = .fault (.bounds (.reg x.toNat)) := by
  simp [withReg, regOperand, show ¬ x.toNat < 8 by omega]

theorem withRegs_bad_left {x y : Byte} {g : RegIndex → RegIndex → Except Fault State} (h : 8 ≤ x.toNat) :
    withRegs x y g = .fault (.bounds (.reg x.toNat)) := by
  simp [withRegs, regOperand, show ¬ x.toNat < 8 by omega]

theorem withRegs_bad_right {x y : Byte} {g : RegIndex → RegIndex → Except Fault State} (hx : x.toNat < 8)
    (h : 8 ≤ y.toNat) : withRegs x y g = .fault (.bounds (.reg y.toNat)) := by
  simp [withRegs, regOperand, hx, show ¬ y.toNat < 8 by omega]

theorem memRead_ok {a : Int} {s : State} (h0 : 0 ≤ a) (h : a ≤ 255) :
    memRead a s = .ok (s.byteAt a.toNat) := by simp [memRead, h0, h]

theorem memRead_fault {a : Int} {s : State} (h : a < 0 ∨ 255 < a) :
    memRead a s = .error (.bounds (.mem a)) := by
  rw [memRead, if_neg (by omega)]

theorem memRead_cases (a : Int) (s : State) :
    (0 ≤ a ∧ a ≤ 255 ∧ memRead a s = .ok (s.byteAt a.toNat)) ∨
      ((a < 0 ∨ 255 < a) ∧ memRead a s = .error (.bounds (.mem a))) := by
  by_cases h : 0 ≤ a ∧ a ≤ 255
  · exact .inl ⟨h.1, h.2, memRead_ok h.1 h.2⟩
  · have h' : a < 0 ∨ 255 < a := by omega
    exact .inr ⟨h', memRead_fault h'⟩

theorem memWrite_ok {a : Int} {v : Byte} {s : State} (h0 : 0 ≤ a) (h : a ≤ 255) :
    memWrite a v s = .ok { s with mem := s.mem.write a.toNat v } := by simp [memWrite, h0, h]

theorem memWrite_fault {a : Int} {v : Byte} {s : State} (h : a < 0 ∨ 255 < a) :
    memWrite a v s = .error (.bounds (.mem a)) := by
  rw [memWrite, if_neg (by omega)]

/-- Everything a push can do. -/
theorem push_cases (v : Byte) (s : State) :
    (1 ≤ s.sp ∧ s.sp ≤ 256 ∧
      push v s = .ok { s with mem := s.mem.write (s.sp - 1).toNat v, sp := s.sp - 1 }) ∨
      ((s.sp < 1 ∨ 256 < s.sp) ∧ push v s = .error (.bounds (.mem (s.sp - 1)))) := by
  by_cases h : 1 ≤ s.sp ∧ s.sp ≤ 256
  · refine .inl ⟨h.1, h.2, ?_⟩
    simp [push, memWrite_ok (a := s.sp - 1) (v := v) (s := s) (by omega) (by omega)]
  · refine .inr ⟨by omega, ?_⟩
    simp [push, memWrite_fault (a := s.sp - 1) (v := v) (s := s) (by omega)]

theorem push_ok {v : Byte} {s : State} (h1 : 1 ≤ s.sp) (h2 : s.sp ≤ 256) :
    push v s = .ok { s with mem := s.mem.write (s.sp - 1).toNat v, sp := s.sp - 1 } := by
  rcases push_cases v s with ⟨-, -, e⟩ | ⟨h, -⟩
  · exact e
  · omega

theorem push_fault {v : Byte} {s : State} (h : s.sp < 1 ∨ 256 < s.sp) :
    push v s = .error (.bounds (.mem (s.sp - 1))) := by
  rcases push_cases v s with ⟨_, _, -⟩ | ⟨-, e⟩
  · omega
  · exact e

theorem pushAddress_ok {v : Nat} {s : State} (h : v ≤ 255) :
    pushAddress v s = push (BitVec.ofNat 8 v) s := by rw [pushAddress, if_neg (by omega)]

theorem pushAddress_fault {v : Nat} {s : State} (h : 255 < v) :
    pushAddress v s = .error (.bounds (.retaddr v)) := by rw [pushAddress, if_pos h]

/-- Everything a pop can do. -/
theorem pop_cases (s : State) :
    (0 ≤ s.sp ∧ s.sp ≤ 255 ∧ pop s = .ok (s.byteAt s.sp.toNat, { s with sp := s.sp + 1 })) ∨
      ((s.sp < 0 ∨ 255 < s.sp) ∧ pop s = .error (.bounds (.mem s.sp))) := by
  rcases memRead_cases s.sp s with ⟨h0, h1, e⟩ | ⟨h, e⟩
  · exact .inl ⟨h0, h1, by simp [pop, e]⟩
  · exact .inr ⟨h, by simp [pop, e]⟩

theorem pop_ok {s : State} (h0 : 0 ≤ s.sp) (h1 : s.sp ≤ 255) :
    pop s = .ok (s.byteAt s.sp.toNat, { s with sp := s.sp + 1 }) := by
  rcases pop_cases s with ⟨-, -, e⟩ | ⟨h, -⟩
  · exact e
  · omega

theorem pop_fault {s : State} (h : s.sp < 0 ∨ 255 < s.sp) : pop s = .error (.bounds (.mem s.sp)) := by
  rcases pop_cases s with ⟨_, _, -⟩ | ⟨-, e⟩
  · omega
  · exact e

/-- Pushing a list inside the address range: SP falls by its length, the k-th value lands at SP − 1 − k,
and nothing else changes. -/
theorem pushAll_ok : ∀ {vs : List Nat} {s : State}, s.mem.wf = true → (∀ v ∈ vs, v ≤ 255) →
    (vs.length : Int) ≤ s.sp → s.sp ≤ 256 →
    ∃ t, pushAll vs s = .ok t ∧ t = { s with mem := t.mem, sp := s.sp - vs.length } ∧
      t.mem.wf = true ∧
      (∀ k (h : k < vs.length), t.byteAt (s.sp - 1 - k).toNat = BitVec.ofNat 8 vs[k]) ∧
      (∀ a : Nat, ((a : Int) < s.sp - vs.length ∨ s.sp ≤ a) → t.byteAt a = s.byteAt a) := by
  intro vs
  induction vs with
  | nil => intro s hm _ _ _; exact ⟨s, rfl, by simp, hm, by simp, by simp⟩
  | cons v rest ih =>
    intro s hm hv hlen hsp
    simp only [List.length_cons, Nat.cast_add, Nat.cast_one] at hlen
    have hpush := push_ok (v := BitVec.ofNat 8 v) (s := s) (by omega) hsp
    obtain ⟨t, ht, heq, hwf, hb, hf⟩ := ih
      (s := { s with mem := s.mem.write (s.sp - 1).toNat (BitVec.ofNat 8 v), sp := s.sp - 1 })
      (write_wf hm (by omega)) (fun w hw => hv w (by simp [hw])) (by simp only; omega) (by simp only; omega)
    refine ⟨t, ?_, ?_, hwf, ?_, ?_⟩
    · rw [pushAll, pushAddress_ok (hv v (by simp)), hpush, bind_ok_eq, ht]
    · rw [heq]
      simp only [List.length_cons, Nat.cast_add, Nat.cast_one, State.mk.injEq, true_and, and_true]
      omega
    · intro k hk
      cases k with
      | zero =>
        rw [hf _ (by simp only; omega)]
        simpa [State.byteAt] using read_write_same hm
      | succ k =>
        have := hb k (by simpa using hk)
        simp only at this
        rw [show (s.sp - 1 - ((k + 1 : Nat) : Int)).toNat = (s.sp - 1 - 1 - (k : Int)).toNat by omega, this]
        simp
    · intro a ha
      simp only [List.length_cons, Nat.cast_add, Nat.cast_one] at ha
      rw [hf a (by simp only; omega)]
      exact read_write_other (by omega)

/-- Popping distinct registers inside the address range: SP rises by their number, the k-th register gets
the byte at SP + k, and nothing else changes. -/
theorem popRegisters_ok : ∀ {rs : List RegIndex} {s : State}, rs.Nodup → 0 ≤ s.sp →
    s.sp + rs.length ≤ 256 →
    ∃ t, popRegisters rs s = .ok t ∧ t = { s with regs := t.regs, sp := s.sp + rs.length } ∧
      (∀ k (h : k < rs.length), t.reg rs[k] = s.byteAt (s.sp + k).toNat) ∧
      (∀ r, r ∉ rs → t.reg r = s.reg r) := by
  intro rs
  induction rs with
  | nil => intro s _ _ _; exact ⟨s, rfl, by simp, by simp, by simp⟩
  | cons r rest ih =>
    intro s hnd h0 hlen
    simp only [List.length_cons, Nat.cast_add, Nat.cast_one] at hlen
    obtain ⟨hr, hnd⟩ := List.nodup_cons.mp hnd
    obtain ⟨t, ht, heq, hb, hf⟩ := ih
      (s := { s with sp := s.sp + 1 }.setReg r (s.byteAt s.sp.toNat)) hnd
      (by simp only [setReg_sp]; omega) (by simp only [setReg_sp]; omega)
    refine ⟨t, ?_, ?_, ?_, ?_⟩
    · simp [popRegisters, pop_ok (s := s) h0 (by omega), ht]
    · rw [heq]
      simp only [State.setReg, List.length_cons, Nat.cast_add, Nat.cast_one, State.mk.injEq, true_and, and_true]
      omega
    · intro k hk
      cases k with
      | zero => simpa using hf r hr
      | succ k =>
        have := hb k (by simpa using hk)
        simp only [setReg_sp, setReg_byteAt] at this
        simp only [List.getElem_cons_succ, this]
        rw [show (s.sp + ((k + 1 : Nat) : Int)).toNat = (s.sp + 1 + (k : Int)).toNat by omega]
        rfl
    · intro q hq
      simp only [List.mem_cons, not_or] at hq
      rw [hf q hq.2, reg_setReg_other _ _ _ _ hq.1]
      rfl

/-- Popping registers past the address range faults at 256. -/
theorem popRegisters_fault : ∀ {rs : List RegIndex} {s : State}, 0 ≤ s.sp → s.sp ≤ 256 →
    256 < s.sp + rs.length → popRegisters rs s = .error (.bounds (.mem 256)) := by
  intro rs
  induction rs with
  | nil => intro s _ h1 h2; simp at h2; omega
  | cons r rest ih =>
    intro s h0 h1 h2
    simp only [List.length_cons, Nat.cast_add, Nat.cast_one] at h2
    rcases pop_cases s with ⟨_, hle, e⟩ | ⟨h, e⟩
    · simp only [popRegisters, e, bind_ok_eq]
      exact ih (by simp only [setReg_sp]; omega) (by simp only [setReg_sp]; omega)
        (by simp only [setReg_sp]; omega)
    · have hs : s.sp = 256 := by omega
      simp [popRegisters, e, hs]

end Sys2Proof.Machine
end

