-- ==== Sys2Proof/Laws/Alu.lean ====
section
/-! SUPPORT. What each ALU operation gives, and what an ALU instruction does. -/

namespace Sys2Proof.Machine

theorem mask8_natCast (n : Nat) : mask8 (n : Int) = BitVec.ofNat 8 n := by
  simp [mask8]

theorem aluAdd_eq (x y : Byte) : aluAdd x y = x + y := by
  apply BitVec.eq_of_toNat_eq
  rw [aluAdd, ← Nat.cast_add, mask8_natCast]
  simp [BitVec.toNat_add]

theorem aluSub_eq (x y : Byte) : aluSub x y = x - y := by
  apply BitVec.eq_of_toInt_eq
  rw [aluSub, mask8, BitVec.toInt_ofInt, BitVec.toInt_sub]
  simp [BitVec.toInt_eq_toNat_bmod]

theorem aluMul_eq (x y : Byte) : aluMul x y = x * y := by
  apply BitVec.eq_of_toNat_eq
  rw [aluMul, ← Nat.cast_mul, mask8_natCast]
  simp [BitVec.toNat_mul]

theorem aluNot_eq (x : Byte) : aluNot x = BitVec.ofNat 8 (255 - x.toNat) := by
  have h := x.isLt
  rw [aluNot, show (255 : Int) - x.toNat = ((255 - x.toNat : Nat) : Int) by omega, mask8_natCast]

theorem aluShl_eq (x y : Byte) : aluShl x y = BitVec.ofNat 8 (x.toNat * 2 ^ y.toNat) := by
  rw [aluShl, mask8_natCast, Nat.shiftLeft_eq]

theorem aluShr_eq (x y : Byte) : aluShr x y = BitVec.ofNat 8 (x.toNat / 2 ^ y.toNat) := by
  rw [aluShr, mask8_natCast, Nat.shiftRight_eq_div_pow]

@[simp] theorem alu_add (x y : Byte) : alu 0xA0#8 x y = .ok (.value (aluAdd x y)) := rfl
@[simp] theorem alu_sub (x y : Byte) : alu 0xA1#8 x y = .ok (.value (aluSub x y)) := rfl
@[simp] theorem alu_mul (x y : Byte) : alu 0xA2#8 x y = .ok (.value (aluMul x y)) := rfl
@[simp] theorem alu_div (x y : Byte) : alu 0xA3#8 x y = (aluDiv x y).map .value := rfl
@[simp] theorem alu_mod (x y : Byte) : alu 0xA4#8 x y = (aluMod x y).map .value := rfl
@[simp] theorem alu_cmp (x y : Byte) : alu 0xA7#8 x y = .ok (.flags (compareFlags x y)) := rfl
@[simp] theorem alu_and (x y : Byte) : alu 0xA8#8 x y = .ok (.value (aluAnd x y)) := rfl
@[simp] theorem alu_or (x y : Byte) : alu 0xAA#8 x y = .ok (.value (aluOr x y)) := rfl
@[simp] theorem alu_xor (x y : Byte) : alu 0xAB#8 x y = .ok (.value (aluXor x y)) := rfl
@[simp] theorem alu_shl (x y : Byte) : alu 0xAC#8 x y = .ok (.value (aluShl x y)) := rfl
@[simp] theorem alu_shr (x y : Byte) : alu 0xAD#8 x y = .ok (.value (aluShr x y)) := rfl
@[simp] theorem alu_not (x y : Byte) : alu 0x69#8 x y = .ok (.value (aluNot x)) := rfl

theorem aluDiv_ok {x y : Byte} (h : y ≠ 0#8) : aluDiv x y = .ok (BitVec.ofNat 8 (x.toNat / y.toNat)) := by
  have : y.toNat ≠ 0 := fun e => h (BitVec.eq_of_toNat_eq (by simpa using e))
  rw [aluDiv, if_neg this]

theorem aluMod_ok {x y : Byte} (h : y ≠ 0#8) : aluMod x y = .ok (BitVec.ofNat 8 (x.toNat % y.toNat)) := by
  have : y.toNat ≠ 0 := fun e => h (BitVec.eq_of_toNat_eq (by simpa using e))
  rw [aluMod, if_neg this]

@[simp] theorem aluDiv_zero (x : Byte) : aluDiv x 0#8 = .error (.arithmetic .div) := rfl
@[simp] theorem aluMod_zero (x : Byte) : aluMod x 0#8 = .error (.arithmetic .mod) := rfl

@[simp] theorem writeResult_value (s : State) (a : RegIndex) (v : Byte) :
    s.writeResult a (.value v) = s.setReg a v := rfl
@[simp] theorem writeResult_flags (s : State) (a : RegIndex) (fl : BitVec 3) :
    s.writeResult a (.flags fl) = { s with fl := fl } := rfl

/-- A two-operand ALU instruction that goes on. -/
theorem aluBinary_next {op x y : Byte} {s t : State} (h : aluBinary op x y s = .next t) :
    ∃ a b result, x = regByte a ∧ y = regByte b ∧ alu op (s.reg a) (s.reg b) = .ok result ∧
      t = (s.writeResult a result).advance 3 := by
  obtain ⟨a, b, rfl, rfl, hg⟩ := withRegs_next h
  obtain ⟨result, hr, ht⟩ := bind_ok hg
  exact ⟨a, b, result, rfl, rfl, hr, by injection ht with ht; exact ht.symm⟩

/-- A one-operand ALU instruction that goes on. -/
theorem aluUnary_next {op x : Byte} {s t : State} (h : aluUnary op x s = .next t) :
    ∃ a result, x = regByte a ∧ alu op (s.reg a) 0#8 = .ok result ∧
      t = (s.writeResult a result).advance 2 := by
  obtain ⟨a, rfl, hg⟩ := withReg_next h
  obtain ⟨result, hr, ht⟩ := bind_ok hg
  exact ⟨a, result, rfl, hr, by injection ht with ht; exact ht.symm⟩

end Sys2Proof.Machine
end

