-- ==== Sys2Proof/Laws/Fetch.lean ====
section
/-! SUPPORT. What the opcode map, the fetch and the interrupt check can answer. -/

namespace Sys2Proof.Machine

/-- A row that is found is in the map, under that opcode. -/
theorem lookupOpcode_some {op : Byte} {row : OpcodeRow} (h : lookupOpcode op = some row) :
    row ∈ opcodeMap ∧ row.opcode = op :=
  ⟨List.mem_of_find?_eq_some h, by simpa using List.find?_some h⟩

theorem opcodeMap_operands_le : ∀ row ∈ opcodeMap, row.operands ≤ 2 := by
  simp [opcodeMap]

theorem lookupOpcode_operands_le {op : Byte} {row : OpcodeRow} (h : lookupOpcode op = some row) :
    row.operands ≤ 2 := opcodeMap_operands_le row (lookupOpcode_some h).1

/-- Every way decoding an opcode of the map can go. -/
theorem decode_cases {op : Byte} {row : OpcodeRow} (rest : List Byte) (h : lookupOpcode op = some row) :
    (row.operands = 0 ∧ decode (op :: rest) = .ok (row.build 0#8 0#8, rest)) ∨
    (row.operands = 1 ∧ rest = [] ∧ decode (op :: rest) = .error (.missingOperand op)) ∨
    (row.operands = 1 ∧ ∃ a tail, rest = a :: tail ∧ decode (op :: rest) = .ok (row.build a 0#8, tail)) ∨
    (row.operands = 2 ∧ rest.length < 2 ∧ decode (op :: rest) = .error (.missingOperand op)) ∨
    (row.operands = 2 ∧ ∃ a b tail, rest = a :: b :: tail ∧
      decode (op :: rest) = .ok (row.build a b, tail)) := by
  have hle := lookupOpcode_operands_le h
  have key : row.operands = 0 ∨ row.operands = 1 ∨ row.operands = 2 := by omega
  rcases key with e | e | e
  · exact .inl ⟨e, by simp [decode, h, e]⟩
  · rcases rest with _ | ⟨a, tail⟩
    · exact .inr (.inl ⟨e, rfl, by simp [decode, h, e]⟩)
    · exact .inr (.inr (.inl ⟨e, a, tail, rfl, by simp [decode, h, e]⟩))
  · rcases rest with _ | ⟨a, _ | ⟨b, tail⟩⟩
    · exact .inr (.inr (.inr (.inl ⟨e, by simp, by simp [decode, h, e]⟩)))
    · exact .inr (.inr (.inr (.inl ⟨e, by simp, by simp [decode, h, e]⟩)))
    · exact .inr (.inr (.inr (.inr ⟨e, a, b, tail, rfl, by simp [decode, h, e]⟩)))

/-- Fetching bytes inside the address range gives what memory holds there. -/
theorem fetchBytes_ok : ∀ {n a : Nat} {s : State}, a + n ≤ 256 →
    fetchBytes n a s = .ok ((List.range n).map fun k => s.byteAt (a + k)) := by
  intro n
  induction n with
  | zero => intro a s _; rfl
  | succ n ih =>
    intro a s h
    rw [fetchBytes, memRead_ok (by omega) (by omega), bind_ok_eq, ih (by omega)]
    simp [List.range_succ_eq_map, Nat.add_assoc, Nat.add_comm 1, Function.comp_def]

/-- Fetching bytes past the address range faults at 256. -/
theorem fetchBytes_fault : ∀ {n a : Nat} {s : State}, a ≤ 256 → 256 < a + n →
    fetchBytes n a s = .error (.bounds (.mem 256)) := by
  intro n
  induction n with
  | zero => intro a s h1 h2; omega
  | succ n ih =>
    intro a s h1 h2
    rw [fetchBytes]
    by_cases h : a = 256
    · subst h; rw [memRead_fault (by omega)]; rfl
    · rw [memRead_ok (by omega) (by omega), bind_ok_eq, ih (by omega) (by omega)]; rfl

/-- The fetched instruction of a row, inside the address range. -/
theorem fetchInstr_ok {op : Byte} {row : OpcodeRow} {s : State} (h : lookupOpcode op = some row)
    (hpc : s.pc + 1 + row.operands ≤ 256) :
    ∃ bytes, fetchBytes row.operands (s.pc + 1) s = .ok bytes ∧
      fetchInstr op s = .ok (row.build (bytes.getD 0 0#8) (bytes.getD 1 0#8)) := by
  refine ⟨_, fetchBytes_ok hpc, ?_⟩
  simp [fetchInstr, h, fetchBytes_ok hpc]

theorem fetchInstr_invalid {op : Byte} {s : State} (h : lookupOpcode op = none) :
    fetchInstr op s = .error .invalidInstruction := by rw [fetchInstr, h]

theorem fetchInstr_fault {op : Byte} {row : OpcodeRow} {s : State} (h : lookupOpcode op = some row)
    (hpc : s.pc + 1 ≤ 256) (hend : 256 < s.pc + 1 + row.operands) :
    fetchInstr op s = .error (.bounds (.mem 256)) := by
  simp [fetchInstr, h, fetchBytes_fault hpc hend]

/-- The lowest set bit, where there is one. -/
theorem lowestSetBit_some {v : Byte} {i : Line} (h : lowestSetBit v = some i) :
    v.getLsbD i.val = true ∧ ∀ j : Line, j < i → v.getLsbD j.val = false := by
  rw [lowestSetBit, List.find?_eq_some_iff_getElem] at h
  obtain ⟨hi, n, hn, hin, hlow⟩ := h
  refine ⟨hi, fun j hj => ?_⟩
  have hnv : n = i.val := by rw [← hin]; simp
  have hj' : j.val < n := by rw [hnv]; exact hj
  simpa using hlow j.val hj'

/-- No set bit: the value is 0. -/
theorem lowestSetBit_none {v : Byte} (h : lowestSetBit v = none) : v = 0#8 := by
  rw [lowestSetBit, List.find?_eq_none] at h
  apply BitVec.eq_of_getLsbD_eq
  intro k hk
  simpa using h ⟨k, hk⟩ (List.mem_finRange _)

@[simp] theorem lowestSetBit_zero : lowestSetBit 0#8 = none := by decide

/-- Everything an iteration can do, by cases on the interrupt check and the fetch. -/
theorem iterate_cases (s : State) :
    (∃ i, pendingLine (timerCheck s) = some i ∧
      iterate s = settle s none (ofHandler (enterInterrupt i (timerCheck s)))) ∨
    (pendingLine (timerCheck s) = none ∧ 255 < s.pc ∧
      iterate s = .next (takeFault s (.bounds (.mem s.pc)) none)) ∨
    (pendingLine (timerCheck s) = none ∧ s.pc ≤ 255 ∧ ∃ f,
      fetchInstr (s.byteAt s.pc) (timerCheck s) = .error f ∧
      iterate s = .next (takeFault s f (some (s.byteAt s.pc)))) ∨
    (pendingLine (timerCheck s) = none ∧ s.pc ≤ 255 ∧ ∃ i,
      fetchInstr (s.byteAt s.pc) (timerCheck s) = .ok i ∧
      iterate s = settle s (some (s.byteAt s.pc)) (exec i (timerCheck s))) := by
  cases hp : pendingLine (timerCheck s) with
  | some i => exact .inl ⟨i, rfl, by rw [iterate, hp]⟩
  | none =>
    refine .inr ?_
    rcases memRead_cases (timerCheck s).pc (timerCheck s) with ⟨h0, h1, e⟩ | ⟨h, e⟩
    · simp only [timerCheck_pc] at h0 h1
      refine .inr ?_
      cases hf : fetchInstr (s.byteAt s.pc) (timerCheck s) with
      | error f =>
        refine .inl ⟨rfl, by omega, f, rfl, ?_⟩
        simp only [timerCheck_pc, Int.toNat_natCast, timerCheck_byteAt] at e
        simp [iterate, hp, executeAtPc, e, hf, settle]
      | ok i =>
        refine .inr ⟨rfl, by omega, i, rfl, ?_⟩
        simp only [timerCheck_pc, Int.toNat_natCast, timerCheck_byteAt] at e
        simp [iterate, hp, executeAtPc, e, hf]
    · simp only [timerCheck_pc] at h e
      refine .inl ⟨rfl, by omega, ?_⟩
      simp [iterate, hp, executeAtPc, e, settle]

end Sys2Proof.Machine
end

