-- ==== Sys2Proof/Laws/Exec.lean ====
section
/-! SUPPORT. What `exec` can answer, one inversion lemma per instruction that is not an ALU operation, and that
it never refuses. -/

namespace Sys2Proof.Machine

/-- Every arm of `exec` is a handler's answer. -/
theorem exec_eq_ofHandler (i : Instr) (s : State) : ∃ x, exec i s = ofHandler x := by
  cases i <;>
    simp only [exec, execHlt, execLdi, execPrn, execPra, execAdd, execSub, execMul, execDiv, execMod, execCmp,
      execAnd, execOr, execXor, execShl, execShr, execNot, execPush, execPop, execCall, execRet, execJmp,
      execJeq, execJne, execJgt, execJge, execJlt, execJle, execSt, execIret, aluBinary, aluUnary,
      conditionalJump, withReg, withRegs] <;>
    exact ⟨_, rfl⟩

theorem exec_not_refused (i : Instr) (s : State) (r : Refusal) : exec i s ≠ .refused r := by
  obtain ⟨x, e⟩ := exec_eq_ofHandler i s
  rw [e]
  exact ofHandler_not_refused

variable {s t : State}

theorem execLdi_next {r v : Byte} (h : execLdi r v s = .next t) :
    ∃ q, r = regByte q ∧ t = (s.setReg q v).advance 3 := by
  obtain ⟨q, rfl, hg⟩ := withReg_next h
  injection hg with hg
  exact ⟨q, rfl, hg.symm⟩

theorem execPrn_next {r : Byte} (h : execPrn r s = .next t) :
    ∃ q, r = regByte q ∧ t = (s.emit (.dec (s.reg q))).advance 2 := by
  obtain ⟨q, rfl, hg⟩ := withReg_next h
  injection hg with hg
  exact ⟨q, rfl, hg.symm⟩

theorem execPra_next {r : Byte} (h : execPra r s = .next t) :
    ∃ q, r = regByte q ∧ t = (s.emit (.chr (s.reg q))).advance 2 := by
  obtain ⟨q, rfl, hg⟩ := withReg_next h
  injection hg with hg
  exact ⟨q, rfl, hg.symm⟩

theorem execSt_next {a b : Byte} (h : execSt a b s = .next t) :
    ∃ ra rb, a = regByte ra ∧ b = regByte rb ∧
      t = { s with mem := s.mem.write (indirectAddress ra s) (s.reg rb) }.advance 3 := by
  obtain ⟨ra, rb, rfl, rfl, hg⟩ := withRegs_next h
  refine ⟨ra, rb, rfl, rfl, ?_⟩
  have hlt := (s.reg ra).isLt
  rw [memWrite_ok (by omega) (by rw [indirectAddress]; omega), bind_ok_eq] at hg
  injection hg with hg
  simpa using hg.symm

theorem execPush_next {r : Byte} (h : execPush r s = .next t) :
    ∃ q, r = regByte q ∧ 1 ≤ s.sp ∧ s.sp ≤ 256 ∧
      t = { s with mem := s.mem.write (s.sp - 1).toNat (s.reg q), sp := s.sp - 1 }.advance 2 := by
  obtain ⟨q, rfl, hg⟩ := withReg_next h
  rcases push_cases (s.reg q) s with ⟨h1, h2, e⟩ | ⟨-, e⟩
  · rw [e, bind_ok_eq] at hg
    injection hg with hg
    exact ⟨q, rfl, h1, h2, hg.symm⟩
  · rw [e] at hg; cases hg

theorem execPop_next {r : Byte} (h : execPop r s = .next t) :
    ∃ q, r = regByte q ∧ 0 ≤ s.sp ∧ s.sp ≤ 255 ∧
      t = ({ s with sp := s.sp + 1 }.setReg q (s.byteAt s.sp.toNat)).advance 2 := by
  obtain ⟨q, rfl, hg⟩ := withReg_next h
  rcases pop_cases s with ⟨h1, h2, e⟩ | ⟨-, e⟩
  · rw [e, bind_ok_eq] at hg
    injection hg with hg
    exact ⟨q, rfl, h1, h2, hg.symm⟩
  · rw [e] at hg; cases hg

theorem execCall_next {a : Byte} (h : execCall a s = .next t) :
    ∃ q, a = regByte q ∧ s.pc + 2 ≤ 255 ∧ 1 ≤ s.sp ∧ s.sp ≤ 256 ∧
      t = { s with
        mem := s.mem.write (s.sp - 1).toNat (BitVec.ofNat 8 (s.pc + 2)), sp := s.sp - 1
        pc := (s.reg q).toNat } := by
  obtain ⟨q, rfl, hg⟩ := withReg_next h
  by_cases hpc : s.pc + 2 ≤ 255
  · rw [pushAddress_ok hpc] at hg
    rcases push_cases (BitVec.ofNat 8 (s.pc + 2)) s with ⟨h1, h2, e⟩ | ⟨-, e⟩
    · rw [e, bind_ok_eq] at hg
      injection hg with hg
      exact ⟨q, rfl, hpc, h1, h2, hg.symm⟩
    · rw [e] at hg; cases hg
  · rw [pushAddress_fault (by omega)] at hg; cases hg

theorem execRet_next (h : execRet s = .next t) :
    0 ≤ s.sp ∧ s.sp ≤ 255 ∧ t = { s with pc := (s.byteAt s.sp.toNat).toNat, sp := s.sp + 1 } := by
  have hg := ofHandler_next h
  rcases pop_cases s with ⟨h1, h2, e⟩ | ⟨-, e⟩
  · rw [e, bind_ok_eq] at hg
    injection hg with hg
    exact ⟨h1, h2, hg.symm⟩
  · rw [e] at hg; cases hg

theorem execJmp_next {a : Byte} (h : execJmp a s = .next t) :
    ∃ q, a = regByte q ∧ t = s.jumpTo q := by
  obtain ⟨q, rfl, hg⟩ := withReg_next h
  injection hg with hg
  exact ⟨q, rfl, hg.symm⟩

theorem conditionalJump_next {c : BitVec 3 → Bool} {a : Byte} (h : conditionalJump c a s = .next t) :
    ∃ q, a = regByte q ∧ t = if c s.fl then s.jumpTo q else s.advance 2 := by
  obtain ⟨q, rfl, hg⟩ := withReg_next h
  injection hg with hg
  exact ⟨q, rfl, hg.symm⟩

theorem execHlt_next (h : execHlt s = .next t) : t = { s with run := .halted .hlt }.advance 1 := by
  have hg := ofHandler_next h
  injection hg with hg
  exact hg.symm

end Sys2Proof.Machine
end

