-- ==== Sys2Proof/Laws/Interrupt.lean ====
section
/-! SUPPORT. Everything interrupt entry and interrupt return can do. -/

namespace Sys2Proof.Machine

/-- What acknowledging a line leaves in the registers. -/
theorem acknowledge_reg (i : Line) (s : State) (r : RegIndex) :
    (acknowledge i s).reg r = if r = 6 then s.is &&& ~~~(1#8 <<< i.val) else s.reg r :=
  reg_setReg { s with ie := false } Config.isRegister r _

theorem savedFrame_length (s : State) : (savedFrame s).length = 9 := rfl

/-- Every saved value but the PC is a byte. -/
theorem savedFrame_le {s : State} (h : s.pc ≤ 255) : ∀ v ∈ savedFrame s, v ≤ 255 := by
  have hr : ∀ r, (s.reg r).toNat ≤ 255 := fun r => by have := (s.reg r).isLt; omega
  have hf : s.fl.toNat ≤ 255 := by have := s.fl.isLt; omega
  simp [savedFrame, h, hr, hf]

/-- Pushing values that are all bytes, with too little stack, faults at −1. -/
theorem pushAll_fault : ∀ {vs : List Nat} {s : State}, (∀ v ∈ vs, v ≤ 255) → 0 ≤ s.sp → s.sp ≤ 256 →
    s.sp < vs.length → pushAll vs s = .error (.bounds (.mem (-1))) := by
  intro vs
  induction vs with
  | nil => intro s _ h0 _ h; simp at h; omega
  | cons v rest ih =>
    intro s hv h0 h1 h
    simp only [List.length_cons, Nat.cast_add, Nat.cast_one] at h
    rw [pushAll, pushAddress_ok (hv v (by simp))]
    rcases push_cases (BitVec.ofNat 8 v) s with ⟨h2, _, e⟩ | ⟨h2, e⟩
    · rw [e, bind_ok_eq]
      exact ih (fun w hw => hv w (by simp [hw])) (by simp only; omega) (by simp only; omega) (by simp only; omega)
    · have h3 : s.sp = 0 := by omega
      rw [e, h3]; rfl

/-- A pushed list that went on moved SP by its length. -/
theorem pushAll_sp : ∀ {vs : List Nat} {s t : State}, pushAll vs s = .ok t →
    t = { s with mem := t.mem, sp := s.sp - vs.length } ∧ (vs ≠ [] → 0 ≤ t.sp ∧ s.sp ≤ 256) := by
  intro vs
  induction vs with
  | nil => intro s t h; injection h with h; subst h; simp
  | cons v rest ih =>
    intro s t h
    obtain ⟨u, hu, ht⟩ := bind_ok h
    by_cases hv : v ≤ 255
    · rw [pushAddress_ok hv] at hu
      rcases push_cases (BitVec.ofNat 8 v) s with ⟨h1, h2, e⟩ | ⟨-, e⟩
      · rw [e] at hu
        injection hu with hu
        subst hu
        obtain ⟨heq, hrest⟩ := ih ht
        have hsp : t.sp = s.sp - 1 - rest.length := by rw [heq]
        refine ⟨?_, fun _ => ⟨?_, h2⟩⟩
        · rw [heq]
          simp only [List.length_cons, Nat.cast_add, Nat.cast_one, State.mk.injEq, true_and, and_true]
          omega
        · cases rest with
          | nil => rw [hsp]; simpa using h1
          | cons w tail => exact (hrest (by simp)).1
      · rw [e] at hu; cases hu
    · rw [pushAddress_fault (by omega)] at hu; cases hu

/-- Pushing keeps the canonical form of memory. -/
theorem pushAll_wf : ∀ {vs : List Nat} {s t : State}, pushAll vs s = .ok t → s.mem.wf = true →
    t.mem.wf = true := by
  intro vs
  induction vs with
  | nil => intro s t h hm; injection h with h; subst h; exact hm
  | cons v rest ih =>
    intro s t h hm
    obtain ⟨u, hu, ht⟩ := bind_ok h
    refine ih ht ?_
    by_cases hv : v ≤ 255
    · rw [pushAddress_ok hv] at hu
      rcases push_cases (BitVec.ofNat 8 v) s with ⟨h1, h2, e⟩ | ⟨-, e⟩
      · rw [e] at hu
        injection hu with hu
        subst hu
        exact write_wf hm (by omega)
      · rw [e] at hu; cases hu
    · rw [pushAddress_fault (by omega)] at hu; cases hu

/-- Interrupt entry that goes on: the pushes went on, and PC is the vector's byte after them. -/
theorem enterInterrupt_next {i : Line} {s t : State} (h : enterInterrupt i s = .ok t) :
    ∃ u, pushAll (savedFrame (acknowledge i s)) (acknowledge i s) = .ok u ∧
      t = { u with pc := (u.byteAt (0xF8 + i.val)).toNat } := by
  obtain ⟨u, hu, ht⟩ := bind_ok h
  refine ⟨u, hu, ?_⟩
  have hi := i.isLt
  rw [memRead_ok (by omega) (by simp only [Config.vectorBase]; omega), bind_ok_eq] at ht
  injection ht with ht
  rw [← ht]
  simp only [Config.vectorBase, Int.toNat_natCast]

/-- Interrupt entry goes on exactly as its pushes do. -/
theorem enterInterrupt_of_pushAll {i : Line} {s u : State}
    (h : pushAll (savedFrame (acknowledge i s)) (acknowledge i s) = .ok u) :
    enterInterrupt i s = .ok { u with pc := (u.byteAt (0xF8 + i.val)).toNat } := by
  have hi := i.isLt
  rw [enterInterrupt, h, bind_ok_eq, memRead_ok (by omega) (by simp only [Config.vectorBase]; omega),
    bind_ok_eq]
  simp only [Config.vectorBase, Int.toNat_natCast]

theorem enterInterrupt_of_fault {i : Line} {s : State} {f : Fault}
    (h : pushAll (savedFrame (acknowledge i s)) (acknowledge i s) = .error f) :
    enterInterrupt i s = .error f := by
  rw [enterInterrupt, h]; rfl

/-- A push raises a BoundsFault or none. -/
theorem pushAll_error : ∀ {vs : List Nat} {s : State} {f : Fault}, pushAll vs s = .error f →
    ∃ c, f = .bounds c := by
  intro vs
  induction vs with
  | nil => intro s f h; cases h
  | cons v rest ih =>
    intro s f h
    rcases bind_error h with h | ⟨u, -, h⟩
    · by_cases hv : v ≤ 255
      · rw [pushAddress_ok hv] at h
        rcases push_cases (BitVec.ofNat 8 v) s with ⟨_, _, e⟩ | ⟨-, e⟩
        · rw [e] at h; cases h
        · rw [e] at h; injection h with h; exact ⟨_, h.symm⟩
      · rw [pushAddress_fault (by omega)] at h; injection h with h; exact ⟨_, h.symm⟩
    · exact ih h

/-- Interrupt entry raises a BoundsFault or none. -/
theorem enterInterrupt_error {i : Line} {s : State} {f : Fault} (h : enterInterrupt i s = .error f) :
    ∃ c, f = .bounds c := by
  cases hp : pushAll (savedFrame (acknowledge i s)) (acknowledge i s) with
  | error g =>
    rw [enterInterrupt_of_fault hp] at h
    injection h with h
    exact h ▸ pushAll_error hp
  | ok u => rw [enterInterrupt_of_pushAll hp] at h; cases h

/-- Popping registers that went on moved SP by their number. -/
theorem popRegisters_next : ∀ {rs : List RegIndex} {s t : State}, popRegisters rs s = .ok t →
    t = { s with regs := t.regs, sp := s.sp + rs.length } ∧
      (rs ≠ [] → 0 ≤ s.sp ∧ s.sp + rs.length ≤ 256) := by
  intro rs
  induction rs with
  | nil => intro s t h; injection h with h; subst h; simp
  | cons r rest ih =>
    intro s t h
    obtain ⟨⟨v, u⟩, hu, ht⟩ := bind_ok h
    rcases pop_cases s with ⟨h0, h1, e⟩ | ⟨-, e⟩
    · rw [e] at hu
      injection hu with hu
      injection hu with hv hu
      subst hu
      obtain ⟨heq, hrest⟩ := ih ht
      refine ⟨?_, fun _ => ⟨h0, ?_⟩⟩
      · rw [heq]
        simp only [State.setReg, List.length_cons, Nat.cast_add, Nat.cast_one, State.mk.injEq, true_and,
          and_true]
        omega
      · simp only [List.length_cons, Nat.cast_add, Nat.cast_one]
        cases rest with
        | nil => simp; omega
        | cons q tail =>
          have := (hrest (by simp)).2
          simp only [setReg_sp] at this
          omega
    · rw [e] at hu; cases hu

/-- Interrupt return with nine bytes above SP: the registers, FL and PC are the bytes there. -/
theorem returnFromInterrupt_ok {s : State} (h0 : 0 ≤ s.sp) (h1 : s.sp ≤ 247) :
    ∃ u, popRegisters [6, 5, 4, 3, 2, 1, 0] s = .ok u ∧
      returnFromInterrupt s = .ok { s with
        regs := u.regs, fl := flagsOfByte (s.byteAt (s.sp + 7).toNat), sp := s.sp + 9, ie := true
        pc := (s.byteAt (s.sp + 8).toNat).toNat } ∧
      (∀ r : RegIndex, r.val ≤ 6 → u.reg r = s.byteAt (s.sp + 6 - r.val).toNat) ∧
      u.reg 7 = s.reg 7 := by
  obtain ⟨u, hu, heq, hb, hf⟩ := popRegisters_ok (rs := [6, 5, 4, 3, 2, 1, 0]) (s := s) (by decide) h0
    (by simp; omega)
  have husp : u.sp = s.sp + 7 := by rw [heq]; rfl
  have hub : ∀ a, u.byteAt a = s.byteAt a := fun a => by rw [heq]; rfl
  have hregs : ∀ r : RegIndex, r.val ≤ 6 → u.reg r = s.byteAt (s.sp + 6 - r.val).toNat := by
    have order : ∀ r : RegIndex, r.val ≤ 6 → ∃ h : 6 - r.val < [6, 5, 4, 3, 2, 1, 0].length,
        ([6, 5, 4, 3, 2, 1, 0] : List RegIndex)[6 - r.val] = r := by decide
    intro r hr
    obtain ⟨h, hr6⟩ := order r hr
    have := hb (6 - r.val) h
    rw [hr6] at this
    rw [this, show s.sp + ((6 - r.val : Nat) : Int) = s.sp + 6 - r.val by omega]
  refine ⟨u, hu, ?_, hregs, hf 7 (by decide)⟩
  rw [returnFromInterrupt, hu, bind_ok_eq, pop_ok (by omega) (by omega)]
  simp only [bind_ok_eq]
  rw [pop_ok (by simp only; omega) (by simp only; omega)]
  simp only [bind_ok_eq]
  have hub' : ∀ a, Memory.read u.mem a = Memory.read s.mem a := hub
  simp only [State.byteAt, husp, hub']
  rw [show s.sp + 7 + 1 = s.sp + 8 by ring]
  rw [heq]
  simp only [State.mk.injEq, Except.ok.injEq, true_and, and_true]
  omega

/-- Interrupt return with SP in [248,256] faults at 256. -/
theorem returnFromInterrupt_fault {s : State} (h0 : 248 ≤ s.sp) (h1 : s.sp ≤ 256) :
    returnFromInterrupt s = .error (.bounds (.mem 256)) := by
  by_cases h : 249 < s.sp
  · rw [returnFromInterrupt, popRegisters_fault (by omega) h1 (by simp; omega)]; rfl
  · obtain ⟨u, hu, heq, -, -⟩ := popRegisters_ok (rs := [6, 5, 4, 3, 2, 1, 0]) (s := s) (by decide) (by omega)
      (by simp; omega)
    have husp : u.sp = s.sp + 7 := by rw [heq]; rfl
    rw [returnFromInterrupt, hu, bind_ok_eq]
    by_cases h9 : s.sp = 249
    · rw [pop_fault (by omega), husp, h9]; rfl
    · rw [pop_ok (by omega) (by omega)]
      simp only [bind_ok_eq]
      rw [pop_fault (by simp only; omega)]
      simp only [bind_error_eq, husp]
      rw [show s.sp + 7 + 1 = 256 by omega]

/-- Interrupt return that goes on had nine bytes above SP. -/
theorem returnFromInterrupt_next {s t : State} (h : returnFromInterrupt s = .ok t) :
    0 ≤ s.sp ∧ s.sp ≤ 247 := by
  obtain ⟨u, hu, h⟩ := bind_ok h
  obtain ⟨heq, hr⟩ := popRegisters_next hu
  have h1 := hr (by simp)
  have husp : u.sp = s.sp + 7 := by rw [heq]; rfl
  refine ⟨h1.1, ?_⟩
  obtain ⟨⟨v, w⟩, hw, h⟩ := bind_ok h
  rcases pop_cases u with ⟨_, _, e⟩ | ⟨-, e⟩
  · rw [e] at hw
    injection hw with hw
    injection hw with hv hw
    subst hw
    obtain ⟨⟨v', w'⟩, hw', -⟩ := bind_ok h
    rcases pop_cases { u with sp := u.sp + 1 } with ⟨_, h2, -⟩ | ⟨-, e'⟩
    · simp only at h2; omega
    · rw [e'] at hw'; cases hw'
  · rw [e] at hw; cases hw

/-- Interrupt return raises a BoundsFault or none. -/
theorem returnFromInterrupt_error {s : State} {f : Fault} (h : returnFromInterrupt s = .error f) :
    ∃ a, f = .bounds (.mem a) := by
  have pops : ∀ {rs : List RegIndex} {s : State}, popRegisters rs s = .error f → ∃ a, f = .bounds (.mem a) := by
    intro rs
    induction rs with
    | nil => intro s h; cases h
    | cons r rest ih =>
      intro s h
      rcases bind_error h with h | ⟨⟨v, u⟩, -, h⟩
      · rcases pop_cases s with ⟨_, _, e⟩ | ⟨-, e⟩
        · rw [e] at h; cases h
        · rw [e] at h; injection h with h; exact ⟨_, h.symm⟩
      · exact ih h
  have one : ∀ {s : State}, pop s = .error f → ∃ a, f = .bounds (.mem a) := by
    intro s h
    rcases pop_cases s with ⟨_, _, e⟩ | ⟨-, e⟩
    · rw [e] at h; cases h
    · rw [e] at h; injection h with h; exact ⟨_, h.symm⟩
  rcases bind_error h with h | ⟨u, -, h⟩
  · exact pops h
  · rcases bind_error h with h | ⟨⟨v, w⟩, -, h⟩
    · exact one h
    · rcases bind_error h with h | ⟨⟨v', w'⟩, -, h⟩
      · exact one h
      · cases h

end Sys2Proof.Machine
end

