-- ==== Sys2Proof/Laws/PerInstr.lean ====
section
/-! SUPPORT. A statement about every instruction as syntax, one lemma per constructor. -/

namespace Sys2Proof.Laws.EncodeShape

/-- The encoding is the opcode byte and then as many operand bytes as the opcode's row takes. -/
def Statement (i : Instr) : Prop :=
  ∃ row operands, lookupOpcode (opcodeOf i) = some row ∧ encode i = opcodeOf i :: operands ∧
    operands.length = row.operands ∧ lengthOf i = 1 + row.operands

theorem hlt : Statement .hlt := ⟨_, _, rfl, rfl, rfl, rfl⟩
theorem ldi (r i : Byte) : Statement (.ldi r i) := ⟨_, _, rfl, rfl, rfl, rfl⟩
theorem prn (r : Byte) : Statement (.prn r) := ⟨_, _, rfl, rfl, rfl, rfl⟩
theorem pra (r : Byte) : Statement (.pra r) := ⟨_, _, rfl, rfl, rfl, rfl⟩
theorem add (a b : Byte) : Statement (.add a b) := ⟨_, _, rfl, rfl, rfl, rfl⟩
theorem sub (a b : Byte) : Statement (.sub a b) := ⟨_, _, rfl, rfl, rfl, rfl⟩
theorem mul (a b : Byte) : Statement (.mul a b) := ⟨_, _, rfl, rfl, rfl, rfl⟩
theorem div (a b : Byte) : Statement (.div a b) := ⟨_, _, rfl, rfl, rfl, rfl⟩
theorem mod (a b : Byte) : Statement (.mod a b) := ⟨_, _, rfl, rfl, rfl, rfl⟩
theorem cmp (a b : Byte) : Statement (.cmp a b) := ⟨_, _, rfl, rfl, rfl, rfl⟩
theorem and (a b : Byte) : Statement (.and a b) := ⟨_, _, rfl, rfl, rfl, rfl⟩
theorem or (a b : Byte) : Statement (.or a b) := ⟨_, _, rfl, rfl, rfl, rfl⟩
theorem xor (a b : Byte) : Statement (.xor a b) := ⟨_, _, rfl, rfl, rfl, rfl⟩
theorem shl (a b : Byte) : Statement (.shl a b) := ⟨_, _, rfl, rfl, rfl, rfl⟩
theorem shr (a b : Byte) : Statement (.shr a b) := ⟨_, _, rfl, rfl, rfl, rfl⟩
theorem not (a : Byte) : Statement (.not a) := ⟨_, _, rfl, rfl, rfl, rfl⟩
theorem push (r : Byte) : Statement (.push r) := ⟨_, _, rfl, rfl, rfl, rfl⟩
theorem pop (r : Byte) : Statement (.pop r) := ⟨_, _, rfl, rfl, rfl, rfl⟩
theorem call (a : Byte) : Statement (.call a) := ⟨_, _, rfl, rfl, rfl, rfl⟩
theorem ret : Statement .ret := ⟨_, _, rfl, rfl, rfl, rfl⟩
theorem jmp (a : Byte) : Statement (.jmp a) := ⟨_, _, rfl, rfl, rfl, rfl⟩
theorem jeq (a : Byte) : Statement (.jeq a) := ⟨_, _, rfl, rfl, rfl, rfl⟩
theorem jne (a : Byte) : Statement (.jne a) := ⟨_, _, rfl, rfl, rfl, rfl⟩
theorem jgt (a : Byte) : Statement (.jgt a) := ⟨_, _, rfl, rfl, rfl, rfl⟩
theorem jge (a : Byte) : Statement (.jge a) := ⟨_, _, rfl, rfl, rfl, rfl⟩
theorem jlt (a : Byte) : Statement (.jlt a) := ⟨_, _, rfl, rfl, rfl, rfl⟩
theorem jle (a : Byte) : Statement (.jle a) := ⟨_, _, rfl, rfl, rfl, rfl⟩
theorem st (a b : Byte) : Statement (.st a b) := ⟨_, _, rfl, rfl, rfl, rfl⟩
theorem iret : Statement .iret := ⟨_, _, rfl, rfl, rfl, rfl⟩

end Sys2Proof.Laws.EncodeShape
end

