-- ==== Sys2Proof/Laws/Step.lean ====
section
/-! SUPPORT. What a step can do, said once: by the run state, and by cases for a running step; and the one next
state of interrupt entry and of IRET. -/

namespace Sys2Proof.Machine

theorem step_idle {s : State} (h : s.run = .idle) : step s = .next { s with run := .running } := by
  rw [step, h]
  simp [hostRun, h]

theorem step_running {s : State} (h : s.run = .running) : step s = iterate s := by rw [step, h]

theorem step_halted {s : State} {o : RunOutcome} (h : s.run = .halted o) : step s = .next s := by
  rw [step, h]

/-- The state interrupt entry leaves, up to the memory it pushed to and the handler's address. -/
theorem enterInterrupt_state {i : Line} {s t : State} (h : enterInterrupt i s = .ok t) :
    t = { s with
      mem := t.mem, regs := s.regs.set 6 (s.is &&& ~~~(1#8 <<< i.val)), pc := t.pc, sp := s.sp - 9,
      ie := false } ∧ 0 ≤ t.sp ∧ s.sp ≤ 256 := by
  obtain ⟨u, hu, rfl⟩ := enterInterrupt_next h
  obtain ⟨e, h2⟩ := pushAll_sp hu
  refine ⟨?_, h2 (by simp [savedFrame])⟩
  have : { u with pc := (u.byteAt (0xF8 + i.val)).toNat } =
      { ({ acknowledge i s with mem := u.mem, sp := s.sp - 9 } : State) with
        pc := (u.byteAt (0xF8 + i.val)).toNat } := by
    conv_lhs => rw [e]
    rfl
  simp only
  rw [this]
  rfl

/-- The state IRET leaves, up to the registers it restores. -/
theorem execIret_next {s t : State} (h : execIret s = .next t) :
    t = { s with
      regs := t.regs, fl := flagsOfByte (s.byteAt (s.sp + 7).toNat), sp := s.sp + 9, ie := true,
      pc := (s.byteAt (s.sp + 8).toNat).toNat } ∧ t.reg 7 = s.reg 7 ∧ 0 ≤ s.sp ∧ s.sp ≤ 247 := by
  have h' := ofHandler_next h
  obtain ⟨h0, h1⟩ := returnFromInterrupt_next h'
  obtain ⟨u, -, e, -, h7⟩ := returnFromInterrupt_ok h0 h1
  rw [e] at h'
  injection h' with h'
  rw [← h']
  exact ⟨rfl, h7, h0, h1⟩

/-- Everything a running step can do: take an interrupt, halt with a fault, or execute an instruction that the
bytes at PC hold whole. -/
theorem step_running_cases {s t : State} (hr : s.run = .running) (h : step s = .next t) :
    (∃ i, pendingLine (timerCheck s) = some i ∧ enterInterrupt i (timerCheck s) = .ok t) ∨
    (∃ f o, t = takeFault s f o ∧
      ((∃ c, f = .bounds c) ∨
        (f = .invalidInstruction ∧ ∃ op, o = some op ∧ lookupOpcode op = none) ∨
        ∃ i, exec i (timerCheck s) = .fault f)) ∨
    (∃ i row bytes, pendingLine (timerCheck s) = none ∧ s.pc ≤ 255 ∧
      lookupOpcode (s.byteAt s.pc) = some row ∧ s.pc + 1 + row.operands ≤ 256 ∧
      fetchBytes row.operands (s.pc + 1) (timerCheck s) = .ok bytes ∧
      i = row.build (bytes.getD 0 0#8) (bytes.getD 1 0#8) ∧ exec i (timerCheck s) = .next t) := by
  rw [step_running hr] at h
  rcases iterate_cases s with ⟨i', hp', e⟩ | ⟨_, h2, e⟩ | ⟨_, hpc, f, hf, e⟩ | ⟨hp, hpc, j, hf, e⟩ <;> rw [e] at h
  · cases hi : enterInterrupt i' (timerCheck s) with
    | ok u =>
      rw [hi] at h
      injection h with h
      subst h
      exact .inl ⟨i', hp', hi⟩
    | error f =>
      rw [hi] at h
      injection h with h
      exact .inr (.inl ⟨f, none, h.symm, .inl (enterInterrupt_error hi)⟩)
  · injection h with h
    exact .inr (.inl ⟨_, _, h.symm, .inl ⟨_, rfl⟩⟩)
  · injection h with h
    refine .inr (.inl ⟨_, _, h.symm, ?_⟩)
    cases hl : lookupOpcode (s.byteAt s.pc) with
    | none =>
      rw [fetchInstr_invalid hl] at hf
      injection hf with hf
      exact .inr (.inl ⟨hf.symm, _, rfl, hl⟩)
    | some row =>
      by_cases hb : s.pc + 1 + row.operands ≤ 256
      · obtain ⟨b, -, e⟩ := fetchInstr_ok (s := timerCheck s) hl (by simpa using hb)
        rw [e] at hf
        cases hf
      · rw [fetchInstr_fault hl (by simp; omega) (by simp; omega)] at hf
        injection hf with hf
        exact .inl ⟨_, hf.symm⟩
  · cases hl : lookupOpcode (s.byteAt s.pc) with
    | none =>
      rw [fetchInstr_invalid hl] at hf
      cases hf
    | some row =>
      by_cases hb : s.pc + 1 + row.operands ≤ 256
      · obtain ⟨b, h1, e2⟩ := fetchInstr_ok (s := timerCheck s) hl (by simpa using hb)
        rw [e2] at hf
        injection hf with hf
        simp only [timerCheck_pc] at h1
        cases hx : exec j (timerCheck s) with
        | next u =>
          rw [hx] at h
          injection h with h
          subst h
          exact .inr (.inr ⟨j, row, b, hp, hpc, rfl, hb, h1, hf.symm, hx⟩)
        | fault f =>
          rw [hx] at h
          injection h with h
          exact .inr (.inl ⟨f, _, h.symm, .inr (.inr ⟨j, hx⟩)⟩)
        | refused r => exact absurd hx (exec_not_refused _ _ _)
      · rw [fetchInstr_fault hl (by simp; omega) (by simp; omega)] at hf
        cases hf

/-! ### The step in terms of `Executes` and `Raises` -/

/-- A read sees the memory only. -/
theorem memRead_of_mem_eq {s t : State} (h : s.mem = t.mem) (a : Int) : memRead a s = memRead a t := by
  simp [memRead, State.byteAt, h]

@[simp] theorem memRead_timerCheck (a : Int) (s : State) : memRead a (timerCheck s) = memRead a s :=
  memRead_of_mem_eq (timerCheck_mem s) a

/-- Fetching bytes sees the memory only. -/
theorem fetchBytes_of_mem_eq {s t : State} (h : s.mem = t.mem) (n a : Nat) :
    fetchBytes n a s = fetchBytes n a t := by
  induction n generalizing a with
  | zero => rfl
  | succ n ih => simp only [fetchBytes, memRead_of_mem_eq h, ih]

/-- The timer check changes nothing that a fetch sees. -/
@[simp] theorem fetchInstr_timerCheck (op : Byte) (s : State) :
    fetchInstr op (timerCheck s) = fetchInstr op s := by
  simp only [fetchInstr, timerCheck_pc, fetchBytes_of_mem_eq (timerCheck_mem s)]

/-- The step of an iteration that executes an instruction. -/
theorem step_of_executes {s : State} {i : Instr} (hr : s.run = .running) (h : Safety.Executes s i) :
    ∃ op, memRead s.pc s = .ok op ∧ fetchInstr op s = .ok i ∧
      step s = settle s (some op) (exec i (timerCheck s)) := by
  obtain ⟨hp, op, hop, hi⟩ := h
  refine ⟨op, hop, hi, ?_⟩
  rw [step_running hr, iterate, hp]
  simp only [executeAtPc, timerCheck_pc, memRead_timerCheck, hop, fetchInstr_timerCheck, hi]

/-- The step of an iteration in which something raises a fault. -/
theorem step_of_raises {s : State} {f : Fault} (hr : s.run = .running) (h : Safety.Raises s f) :
    ∃ o, step s = .next (takeFault s f o) := by
  rcases h with ⟨i, hp, hf⟩ | ⟨hp, hf⟩ | ⟨hp, op, hop, hf⟩ | ⟨i, hx, hf⟩
  · refine ⟨none, ?_⟩
    rw [step_running hr, iterate, hp]
    simp only [hf, ofHandler, settle]
  · refine ⟨none, ?_⟩
    rw [step_running hr, iterate, hp]
    simp only [executeAtPc, timerCheck_pc, memRead_timerCheck, hf, settle]
  · refine ⟨some op, ?_⟩
    rw [step_running hr, iterate, hp]
    simp only [executeAtPc, timerCheck_pc, memRead_timerCheck, hop, fetchInstr_timerCheck, hf, settle]
  · obtain ⟨op, -, -, e⟩ := step_of_executes hr hx
    exact ⟨some op, by rw [e, hf, settle]⟩

/-- What a running step answers: an interrupt entry, the fault that something raises, or an instruction. -/
theorem step_running_outcome {s t : State} (hr : s.run = .running) (h : step s = .next t) :
    (∃ i, pendingLine (timerCheck s) = some i ∧ enterInterrupt i (timerCheck s) = .ok t) ∨
    (∃ f o, Safety.Raises s f ∧ t = takeFault s f o) ∨
    ∃ i, Safety.Executes s i ∧ exec i (timerCheck s) = .next t := by
  have raised : ∀ f, Safety.Raises s f → ∃ f o, Safety.Raises s f ∧ t = takeFault s f o := by
    intro f hf
    obtain ⟨o, e⟩ := step_of_raises hr hf
    rw [h] at e
    injection e with e
    exact ⟨f, o, hf, e⟩
  cases hp : pendingLine (timerCheck s) with
  | some i =>
    cases he : enterInterrupt i (timerCheck s) with
    | error f => exact .inr (.inl (raised f (.inl ⟨i, hp, he⟩)))
    | ok u =>
      rw [step_running hr, iterate, hp] at h
      simp only [he, ofHandler, settle] at h
      injection h with h
      exact .inl ⟨i, rfl, h ▸ he⟩
  | none =>
    cases hop : memRead s.pc s with
    | error f => exact .inr (.inl (raised f (.inr (.inl ⟨hp, hop⟩))))
    | ok op =>
      cases hi : fetchInstr op s with
      | error f => exact .inr (.inl (raised f (.inr (.inr (.inl ⟨hp, op, hop, hi⟩)))))
      | ok i =>
        have hx : Safety.Executes s i := ⟨hp, op, hop, hi⟩
        cases he : exec i (timerCheck s) with
        | fault f => exact .inr (.inl (raised f (.inr (.inr (.inr ⟨i, hx, he⟩)))))
        | refused r => exact absurd he (exec_not_refused _ _ _)
        | next u =>
          obtain ⟨op, -, -, e⟩ := step_of_executes hr hx
          rw [h, he] at e
          injection e with e
          exact .inr (.inr ⟨i, hx, e ▸ he⟩)

end Sys2Proof.Machine
end

