-- ==== Sys2Proof/Tests/Slice0.lean ====
section
/-! SUPPORT. The model's own tests. Expected results are from spec/95_test_vectors.md (its V-tables) or worked
out by hand from the rule named; words are written out from 30_encoding.md R93 and R95. -/

namespace Sys2Proof.Tests

open Sys2Proof.Machine Sys2Proof.Safety

/-! ### Helpers -/

/-- A Running state after reset, with no timer fire in the next two iterations. -/
def start : State := { State.reset with run := .running, timerInput := [false, false] }

/-- `start` with x in R0 and y in R1. -/
def startXY (x y : Byte) : State := (start.setReg 0 x).setReg 1 y

/-- The next state of an outcome, if there is one. -/
def next? : Host.Outcome State Fault Refusal → Option State
  | .next t => some t
  | .fault _ => none
  | .refused _ => none

/-- The fault of an outcome, if there is one. -/
def fault? : Host.Outcome State Fault Refusal → Option Fault
  | .next _ => none
  | .fault f => some f
  | .refused _ => none

/-- R0 after an instruction. -/
def r0After (i : Instr) (s : State) : Option Byte := (next? (exec i s)).map fun t => t.reg 0

/-- FL after an instruction. -/
def flAfter (i : Instr) (s : State) : Option (BitVec 3) := (next? (exec i s)).map fun t => t.fl

/-- PC after an instruction. -/
def pcAfter (i : Instr) (s : State) : Option Nat := (next? (exec i s)).map fun t => t.pc

/-! ### WellFormed (R92, R100) -/

theorem test_wf_refuses_operand_a : [Instr.ldi 8#8 0#8, .prn 9#8, .pra 8#8, .add 8#8 0#8, .sub 8#8 0#8, .mul 8#8 0#8,
    .div 8#8 0#8, .mod 8#8 0#8, .cmp 8#8 0#8, .and 8#8 0#8, .or 8#8 0#8, .xor 8#8 0#8, .shl 8#8 0#8,
    .shr 8#8 0#8].all (fun i => !i.wf) = true := by decide

theorem test_wf_refuses_operand_a_of_the_rest : [Instr.not 8#8, .push 255#8, .pop 8#8, .call 8#8, .jmp 16#8, .jeq 8#8,
    .jne 8#8, .jgt 8#8, .jge 8#8, .jlt 8#8, .jle 128#8, .st 8#8 0#8].all (fun i => !i.wf) = true := by decide

theorem test_wf_refuses_operand_b : [Instr.add 0#8 8#8, .sub 0#8 8#8, .mul 0#8 8#8, .div 0#8 8#8, .mod 0#8 8#8,
    .cmp 0#8 8#8, .and 0#8 8#8, .or 0#8 8#8, .xor 0#8 8#8, .shl 0#8 8#8, .shr 0#8 8#8,
    .st 0#8 255#8].all (fun i => !i.wf) = true := by decide

theorem test_wf_accepts_registers_and_any_immediate :
    [Instr.hlt, .ret, .iret, .ldi 7#8 255#8, .add 7#8 7#8, .st 0#8 7#8, .jmp 7#8].all Instr.wf = true := by decide

/-! ### Decode: every row's word, bit by bit (R93, R95) -/

theorem test_decode_no_operand :
    decode [0b00000001#8] = .ok (.hlt, []) ∧ decode [0b00010001#8] = .ok (.ret, []) ∧
    decode [0b00010011#8] = .ok (.iret, []) := ⟨rfl, rfl, rfl⟩

theorem test_decode_system_and_stack :
    decode [0b01000111#8, 1#8] = .ok (.prn 1#8, []) ∧ decode [0b01001000#8, 2#8] = .ok (.pra 2#8, []) ∧
    decode [0b01000101#8, 3#8] = .ok (.push 3#8, []) ∧ decode [0b01000110#8, 4#8] = .ok (.pop 4#8, []) ∧
    decode [0b10000010#8, 5#8, 200#8] = .ok (.ldi 5#8 200#8, []) ∧
    decode [0b10000100#8, 6#8, 7#8] = .ok (.st 6#8 7#8, []) := ⟨rfl, rfl, rfl, rfl, rfl, rfl⟩

theorem test_decode_arithmetic :
    decode [0b10100000#8, 1#8, 2#8] = .ok (.add 1#8 2#8, []) ∧
    decode [0b10100001#8, 1#8, 2#8] = .ok (.sub 1#8 2#8, []) ∧
    decode [0b10100010#8, 1#8, 2#8] = .ok (.mul 1#8 2#8, []) ∧
    decode [0b10100011#8, 1#8, 2#8] = .ok (.div 1#8 2#8, []) ∧
    decode [0b10100100#8, 1#8, 2#8] = .ok (.mod 1#8 2#8, []) ∧
    decode [0b10100111#8, 1#8, 2#8] = .ok (.cmp 1#8 2#8, []) := ⟨rfl, rfl, rfl, rfl, rfl, rfl⟩

theorem test_decode_logic :
    decode [0b10101000#8, 1#8, 2#8] = .ok (.and 1#8 2#8, []) ∧
    decode [0b10101010#8, 1#8, 2#8] = .ok (.or 1#8 2#8, []) ∧
    decode [0b10101011#8, 1#8, 2#8] = .ok (.xor 1#8 2#8, []) ∧
    decode [0b10101100#8, 1#8, 2#8] = .ok (.shl 1#8 2#8, []) ∧
    decode [0b10101101#8, 1#8, 2#8] = .ok (.shr 1#8 2#8, []) ∧
    decode [0b01101001#8, 7#8] = .ok (.not 7#8, []) := ⟨rfl, rfl, rfl, rfl, rfl, rfl⟩

theorem test_decode_control_flow :
    decode [0b01010000#8, 1#8] = .ok (.call 1#8, []) ∧ decode [0b01010100#8, 1#8] = .ok (.jmp 1#8, []) ∧
    decode [0b01010101#8, 1#8] = .ok (.jeq 1#8, []) ∧ decode [0b01010110#8, 1#8] = .ok (.jne 1#8, []) ∧
    decode [0b01010111#8, 1#8] = .ok (.jgt 1#8, []) ∧ decode [0b01011000#8, 1#8] = .ok (.jlt 1#8, []) ∧
    decode [0b01011001#8, 1#8] = .ok (.jle 1#8, []) ∧ decode [0b01011010#8, 1#8] = .ok (.jge 1#8, []) :=
  ⟨rfl, rfl, rfl, rfl, rfl, rfl, rfl, rfl⟩

theorem test_decode_errors :
    decode [] = .error .noOpcode ∧ decode [0xFF#8, 0#8, 0#8] = .error (.invalidOpcode 0xFF#8) ∧
    decode [0x00#8] = .error (.invalidOpcode 0x00#8) ∧ decode [0x82#8, 0#8] = .error (.missingOperand 0x82#8) ∧
    decode [0x45#8] = .error (.missingOperand 0x45#8) := ⟨rfl, rfl, rfl, rfl, rfl⟩

theorem test_decode_leaves_the_rest : decode [0x47#8, 0#8, 0x01#8] = .ok (.prn 0#8, [0x01#8]) := rfl

theorem test_table_words :
    decodeTableWord 24 0x080082 = some (.ldi 0#8 8#8) ∧ decodeTableWord 8 0x82 = some (.ldi 0#8 0#8) ∧
    decodeTableWord 16 0x0147 = some (.prn 1#8) ∧ decodeTableWord 8 0x13 = some .iret ∧
    decodeTableWord 8 0xFF = none := by decide

theorem test_encode : encode (.st 3#8 4#8) = [0x84#8, 3#8, 4#8] ∧ encode (.jge 2#8) = [0x5A#8, 2#8] ∧
    encode .ret = [0x11#8] := ⟨rfl, rfl, rfl⟩

/-! ### A placed word is the first instruction after reset -/

theorem test_fetch_word_runs_ldi :
    (next? (step (State.reset.withFetchWord 24 0x080082))).map (fun t => (t.reg 0, t.pc)) = some (8#8, 3) := by
  decide

theorem test_fetch_word_runs_hlt :
    (next? (step (State.reset.withFetchWord 8 0x01))).map (fun t => (t.run, t.pc)) =
      some (.halted .hlt, 1) := by decide

theorem test_fetch_word_at_the_top_with_a_pending_line :
    (next? (step (({ start with pc := 254 }.setReg 5 1#8).setReg 6 1#8 |>.withFetchWord 24 0x050282))).map
      (fun t => (t.reg 2, t.pc, t.run)) = some (5#8, 3, .running) := by decide

/-! ### The ALU (V-ALU) -/

theorem test_add_wraps : r0After (.add 0#8 1#8) (startXY 0xC8#8 0x64#8) = some 0x2C#8 := by decide
theorem test_add_same_register : r0After (.add 0#8 0#8) (startXY 0x90#8 0#8) = some 0x20#8 := by decide
theorem test_sub_wraps : r0After (.sub 0#8 1#8) (startXY 0x05#8 0x09#8) = some 0xFC#8 := by decide
theorem test_sub_leaves_flags : flAfter (.sub 0#8 1#8) { startXY 0#8 1#8 with fl := 5#3 } = some 5#3 := by decide
theorem test_mul_low_byte : r0After (.mul 0#8 1#8) (startXY 0xFF#8 0xFF#8) = some 0x01#8 := by decide
theorem test_mul_keeps_b :
    (next? (exec (.mul 0#8 1#8) (startXY 0x0C#8 0x0B#8))).map (fun t => (t.reg 0, t.reg 1)) =
      some (0x84#8, 0x0B#8) := by decide
theorem test_div_floor : r0After (.div 0#8 1#8) (startXY 0xC8#8 0x07#8) = some 0x1C#8 := by decide
theorem test_div_by_zero : fault? (exec (.div 0#8 1#8) (startXY 0x05#8 0#8)) = some (.arithmetic .div) := by decide
theorem test_mod_remainder : r0After (.mod 0#8 1#8) (startXY 0xC8#8 0x07#8) = some 0x04#8 := by decide
theorem test_mod_by_zero : fault? (exec (.mod 0#8 1#8) (startXY 0x05#8 0#8)) = some (.arithmetic .mod) := by decide
theorem test_and : r0After (.and 0#8 1#8) (startXY 0xCC#8 0xAA#8) = some 0x88#8 := by decide
theorem test_or : r0After (.or 0#8 1#8) (startXY 0xCC#8 0xAA#8) = some 0xEE#8 := by decide
theorem test_xor : r0After (.xor 0#8 1#8) (startXY 0xCC#8 0xAA#8) = some 0x66#8 := by decide
theorem test_shl_drops_bit_seven : r0After (.shl 0#8 1#8) (startXY 0x81#8 0x01#8) = some 0x02#8 := by decide
theorem test_shl_by_eight : r0After (.shl 0#8 1#8) (startXY 0x01#8 0x08#8) = some 0#8 := by decide
theorem test_shr_fills_with_zero : r0After (.shr 0#8 1#8) (startXY 0x81#8 0x04#8) = some 0x08#8 := by decide
theorem test_shr_by_eight : r0After (.shr 0#8 1#8) (startXY 0xFF#8 0x08#8) = some 0#8 := by decide
theorem test_not : r0After (.not 0#8) (startXY 0x5A#8 0#8) = some 0xA5#8 := by decide
theorem test_not_advances_two : pcAfter (.not 0#8) start = some 2 := by decide
theorem test_cmp_unsigned : flAfter (.cmp 0#8 1#8) (startXY 0x80#8 0x7F#8) = some 0b100#3 := by decide
theorem test_cmp_less_clears_the_others :
    flAfter (.cmp 0#8 1#8) { startXY 0x03#8 0x05#8 with fl := 0b101#3 } = some 0b010#3 := by decide

/-! ### Data movement (V-DATA) -/

theorem test_ldi : r0After (.ldi 0#8 8#8) start = some 8#8 := by decide
theorem test_ldi_r7_leaves_sp :
    (next? (exec (.ldi 7#8 0x10#8) start)).map (fun t => (t.reg 7, t.sp)) = some (0x10#8, 0xF4) := by decide
theorem test_st : (next? (exec (.st 0#8 1#8) (startXY 0xF8#8 0x40#8))).map (fun t => t.byteAt 0xF8) =
    some 0x40#8 := by decide
theorem test_st_zero_unlists :
    (next? (exec (.st 0#8 1#8) { startXY 0x05#8 0#8 with mem := [(5, 1#8)] })).map (fun t => t.mem) =
      some [] := by decide
theorem test_push_at_256 :
    (next? (exec (.push 0#8) { startXY 0x07#8 0#8 with sp := 256 })).map (fun t => (t.sp, t.byteAt 0xFF)) =
      some (255, 0x07#8) := by decide
theorem test_push_at_zero_faults :
    fault? (exec (.push 0#8) { start with sp := 0 }) = some (.bounds (.mem (-1))) := by decide
theorem test_pop_at_255 :
    (next? (exec (.pop 0#8) { start with sp := 255, mem := [(255, 0x99#8)] })).map (fun t => (t.reg 0, t.sp)) =
      some (0x99#8, 256) := by decide
theorem test_pop_at_256_faults :
    fault? (exec (.pop 0#8) { start with sp := 256 }) = some (.bounds (.mem 256)) := by decide

/-! ### Control flow (V-CTRL) -/

theorem test_call :
    (next? (exec (.call 1#8) { startXY 0#8 0x30#8 with pc := 0x10 })).map
      (fun t => (t.byteAt 0xF3, t.sp, t.pc)) = some (0x12#8, 0xF3, 0x30) := by decide
theorem test_call_return_address_256 :
    fault? (exec (.call 1#8) { startXY 0#8 0x30#8 with pc := 254, sp := 0 }) =
      some (.bounds (.retaddr 256)) := by decide
theorem test_ret :
    (next? (exec .ret { start with sp := 0xF3, mem := [(0xF3, 0x12#8)] })).map (fun t => (t.pc, t.sp)) =
      some (0x12, 0xF4) := by decide
theorem test_ret_at_256_faults :
    fault? (exec .ret { start with sp := 256 }) = some (.bounds (.mem 256)) := by decide
theorem test_jmp : pcAfter (.jmp 1#8) (startXY 0#8 0x20#8) = some 0x20 := by decide

/-- A row of the table of V-CTRL: JEQ, JNE, JGT, JGE, JLT, JLE for one value of FL, R1 = 40. -/
def jumpRow (fl : BitVec 3) : List (Option Nat) :=
  [Instr.jeq 1#8, .jne 1#8, .jgt 1#8, .jge 1#8, .jlt 1#8, .jle 1#8].map fun i =>
    pcAfter i { startXY 0#8 0x40#8 with fl := fl }

theorem test_jumps_reset : jumpRow 0b000#3 = [some 2, some 0x40, some 2, some 2, some 2, some 2] := by decide
theorem test_jumps_e : jumpRow 0b001#3 = [some 0x40, some 2, some 2, some 0x40, some 2, some 0x40] := by decide
theorem test_jumps_l : jumpRow 0b010#3 = [some 2, some 0x40, some 2, some 2, some 0x40, some 0x40] := by decide
theorem test_jumps_g : jumpRow 0b100#3 = [some 2, some 0x40, some 0x40, some 0x40, some 2, some 2] := by decide
theorem test_jump_not_taken_checks_its_register :
    fault? (exec (.jne 8#8) { start with fl := 1#3 }) = some (.bounds (.reg 8)) := by decide

/-! ### HLT, output, IRET (V-SYS) -/

theorem test_hlt_at_255 :
    (next? (exec .hlt { start with pc := 255 })).map (fun t => (t.run, t.pc)) = some (.halted .hlt, 256) := by
  decide
theorem test_prn : (next? (exec (.prn 0#8) { startXY 0x11#8 0#8 with out := [.chr 1#8] })).map (fun t => t.out) =
    some [.chr 1#8, .dec 17#8] := by decide
theorem test_pra : (next? (exec (.pra 1#8) (startXY 0#8 0x41#8))).map (fun t => t.out) =
    some [.chr 0x41#8] := by decide
theorem test_prn_bad_register : fault? (exec (.prn 9#8) start) = some (.bounds (.reg 9)) := by decide
theorem test_iret_at_247 :
    (next? (exec .iret { start with sp := 0xF7, ie := false, mem := [(0xFE, 0xFF#8), (0xFF, 0x77#8)] })).map
      (fun t => (t.fl, t.pc, t.sp, t.ie, t.reg 7)) = some (7#3, 0x77, 256, true, 0xF4#8) := by decide
theorem test_iret_at_248_faults :
    fault? (exec .iret { start with sp := 0xF8 }) = some (.bounds (.mem 256)) := by decide

/-! ### Fetch, timer and interrupts (V-FETCH, V-INT) -/

theorem test_operand_fetch_before_index_check :
    (next? (step { start with pc := 254, mem := [(254, 0xA0#8), (255, 9#8)] })).map (fun t => t.run) =
      some (.halted (.fault ⟨.bounds (.mem 256), 254, some 0xA0#8⟩)) := by decide
theorem test_empty_memory_is_invalid :
    (next? (step start)).map (fun t => t.run) =
      some (.halted (.fault ⟨.invalidInstruction, 0, some 0#8⟩)) := by decide

/-- The start of V-INT's entry, its IM = 1 and the timer about to fire. -/
def beforeEntry : State :=
  { start with
    pc := 0x0A, fl := 0b010#3, mem := [(0xF8, 0x30#8)], timerInput := [true]
    regs := #v[1#8, 2#8, 3#8, 4#8, 5#8, 1#8, 0#8, 0xF4#8] }

theorem test_entry_frame :
    (next? (step beforeEntry)).map (fun t => t.mem) =
      some [(0xEC, 1#8), (0xED, 5#8), (0xEE, 4#8), (0xEF, 3#8), (0xF0, 2#8), (0xF1, 1#8), (0xF2, 2#8),
        (0xF3, 0x0A#8), (0xF8, 0x30#8)] := by decide
theorem test_entry_registers :
    (next? (step beforeEntry)).map (fun t => (t.ie, t.reg 6, t.sp, t.pc)) =
      some (false, 0#8, 0xEB, 0x30) := by decide
theorem test_lowest_line_first :
    (next? (step ({ start with mem := [(0xF9, 0x40#8), (0xFA, 0x50#8)] }.setReg 5 0xFF#8 |>.setReg 6 0x06#8))).map
      (fun t => (t.pc, t.reg 6, t.sp)) = some (0x40, 0x04#8, 0xEB) := by decide
theorem test_no_interrupt_with_ie_clear :
    (next? (step ({ start with ie := false, mem := [(0, 0x01#8)] }.setReg 5 1#8 |>.setReg 6 1#8))).map
      (fun t => t.run) = some (.halted .hlt) := by decide
theorem test_masked_timer_fire :
    (next? (step { start with timerInput := [true], mem := [(0, 0x01#8)] })).map (fun t => (t.reg 6, t.run)) =
      some (1#8, .halted .hlt) := by decide
theorem test_entry_needs_nine_bytes :
    (next? (step ({ start with sp := 8 }.setReg 5 1#8 |>.setReg 6 1#8))).map (fun t => t.run) =
      some (.halted (.fault ⟨.bounds (.mem (-1)), 0, none⟩)) := by decide

/-! ### Host ports (R121, R122) -/

theorem test_load_at_zero : (load [0x82#8, 0#8, 8#8] State.reset).2.mem = [(0, 0x82#8), (2, 8#8)] := by decide
theorem test_load_refused_when_running : load [1#8] start = (.notIdle, start) := by decide

/-! ### Witnesses: for each statement with hypotheses, a state and operands that meet them, clause by clause -/

/-- A Running state with these bytes listed, at `pc`. -/
def holding (mem : Memory) (pc : Nat) : State := { start with mem := mem, pc := pc }

/-- A Running state at a DIV whose divisor register holds 0. -/
def atDivByZero : State := holding [(0, 0xA3#8)] 0

/-- A Running state with line 0 pending. -/
def pending0 : State := (start.setReg 5 1#8).setReg 6 1#8

theorem witness_DecodedBytesAreTheEncoding :
    decode [0xA0#8, 0xFF#8, 7#8, 9#8] = .ok (.add 0xFF#8 7#8, [9#8]) := rfl

theorem witness_InstructionLengthFollowsFromTheOpcode :
    (∃ row, lookupOpcode 0x82#8 = some row ∧ row.operands = 2) ∧
    decode [0x82#8, 0#8, 8#8] = .ok (.ldi 0#8 8#8, []) ∧
    decode [0x82#8, 0#8] = .error (.missingOperand 0x82#8) := ⟨⟨_, rfl, rfl⟩, rfl, rfl⟩

theorem witness_EachOpcodeHasExactlyOneRow :
    (∃ row, lookupOpcode 0x01#8 = some row) ∧ (∃ row ∈ opcodeMap, row.opcode = 0x13#8) :=
  ⟨⟨_, rfl⟩, _, List.mem_of_find?_eq_some (p := fun row => row.opcode == 0x13#8) rfl, rfl⟩

/-- HLT as the last byte of memory, and a DIV by zero. -/
theorem witness_StepRunsTheDecodedInstruction :
    (let s := holding [(255, 0x01#8)] 255
     s.run = .running ∧ pendingLine (timerCheck s) = none ∧ decode [0x01#8] = .ok (.hlt, []) ∧
     s.pc + 1 ≤ 256 ∧ s.byteAt s.pc = 0x01#8 ∧
     ∃ t, exec .hlt (timerCheck s) = .next t ∧ step s = .next t) ∧
    (atDivByZero.run = .running ∧ pendingLine (timerCheck atDivByZero) = none ∧
      decode [0xA3#8, 0#8, 0#8] = .ok (.div 0#8 0#8, []) ∧ atDivByZero.pc + 3 ≤ 256 ∧
      (∀ k (h : k < [0xA3#8, 0#8, 0#8].length),
        atDivByZero.byteAt (atDivByZero.pc + k) = [0xA3#8, 0#8, 0#8][k]) ∧
      exec (.div 0#8 0#8) (timerCheck atDivByZero) = .fault (.arithmetic .div)) :=
  ⟨⟨rfl, by decide, rfl, by decide, rfl, _, rfl, rfl⟩, rfl, by decide, rfl, by decide, by decide, rfl⟩

/-- Entry that succeeds, entry that faults, ie clear with a line pending, and no line pending. -/
theorem witness_IterationTakesOneInterruptOrExecutes :
    (pending0.run = .running ∧ (timerCheck pending0).ie = true ∧
      (timerCheck pending0).im &&& (timerCheck pending0).is ≠ 0#8 ∧
      ∃ t, enterInterrupt 0 (timerCheck pending0) = .ok t) ∧
    (enterInterrupt 0 (timerCheck { pending0 with sp := 8 }) = .error (.bounds (.mem (-1)))) ∧
    (timerCheck { pending0 with ie := false }).ie = false ∧
    (timerCheck start).im &&& (timerCheck start).is = 0#8 :=
  ⟨⟨rfl, rfl, by decide, _, rfl⟩, rfl, rfl, by decide⟩

/-- Idle; a PRN; HLT, which is executed; a fault of decode and one of interrupt entry; Halted. -/
theorem witness_RunStateMovesOnlyAsTheTableSays :
    (∃ t, State.reset.run = .idle ∧ step State.reset = .next t ∧ t.run = .running) ∧
    (∃ t, step (holding [(0, 0x47#8)] 0) = .next t ∧ t.run = .running) ∧
    (∃ t, Executes (holding [(0, 0x01#8)] 0) .hlt ∧ step (holding [(0, 0x01#8)] 0) = .next t ∧
      t.run = .halted .hlt ∧ step t = .next t) ∧
    (∃ t r, Raises start .invalidInstruction ∧ step start = .next t ∧ t.run = .halted (.fault r)) ∧
    Raises { pending0 with sp := 8 } (.bounds (.mem (-1))) :=
  ⟨⟨_, rfl, rfl, rfl⟩, ⟨_, rfl, rfl⟩, ⟨_, ⟨by decide, _, rfl, rfl⟩, rfl, rfl, rfl⟩,
    ⟨_, _, .inr (.inr (.inl ⟨by decide, _, rfl, rfl⟩)), rfl, rfl⟩, .inl ⟨0, by decide, rfl⟩⟩

theorem witness_FaultingIterationCommitsNothing :
    ∃ t r, start.run = .running ∧ step { start with timerInput := [true] } = .next t ∧
      t.run = .halted (.fault r) ∧ r.fault = .invalidInstruction ∧ t.reg 6 = 0#8 :=
  ⟨_, _, rfl, rfl, rfl, rfl, rfl⟩

theorem witness_InvalidOpcodeHalts :
    (let s := holding [(255, 0xFF#8)] 255
     s.run = .running ∧ pendingLine (timerCheck s) = none ∧ s.pc ≤ 255) ∧
    (lookupOpcode ((holding [(255, 0xFF#8)] 255).byteAt 255)).isNone = true :=
  ⟨⟨rfl, by decide, by decide⟩, rfl⟩

/-- PC = 256; a one-operand opcode at 255; a two-operand one at 254 (PC + 2 = 256) and at 255. -/
theorem witness_FetchPastTheEndFaults :
    (start.run = .running ∧ pendingLine (timerCheck (holding [] 256)) = none ∧ (holding [] 256).pc = 256) ∧
    (∃ row, lookupOpcode ((holding [(255, 0x45#8)] 255).byteAt 255) = some row ∧ 255 < 255 + row.operands) ∧
    (∃ row, lookupOpcode ((holding [(254, 0x82#8)] 254).byteAt 254) = some row ∧ 255 < 254 + row.operands) ∧
    (∃ row, lookupOpcode ((holding [(255, 0x82#8)] 255).byteAt 255) = some row ∧ 255 < 255 + row.operands) ∧
    pendingLine (timerCheck (holding [(255, 0x45#8)] 255)) = none :=
  ⟨⟨rfl, by decide, rfl⟩, ⟨_, rfl, by decide⟩, ⟨_, rfl, by decide⟩, ⟨_, rfl, by decide⟩, by decide⟩

set_option maxRecDepth 2000 in
/-- A fault of the opcode fetch, of decode, of the operand fetch, of a handler, and of interrupt entry. -/
theorem witness_HltAndFaultsEndTheRun :
    (∃ t, (Instr.ldi 0#8 1#8 ≠ .hlt) ∧ exec (.ldi 0#8 1#8) start = .next t) ∧
    memRead (holding [] 256).pc (holding [] 256) = .error (.bounds (.mem 256)) ∧
    fetchInstr 0xFF#8 start = .error .invalidInstruction ∧
    fetchInstr 0x45#8 (holding [(255, 0x45#8)] 255) = .error (.bounds (.mem 256)) ∧
    (memRead atDivByZero.pc atDivByZero = .ok 0xA3#8 ∧ fetchInstr 0xA3#8 atDivByZero = .ok (.div 0#8 0#8) ∧
      fault? (exec (.div 0#8 0#8) (timerCheck atDivByZero)) = some (.arithmetic .div)) ∧
    (pendingLine (timerCheck { pending0 with sp := 0 }) = some 0 ∧
      enterInterrupt 0 (timerCheck { pending0 with sp := 0 }) = .error (.bounds (.mem (-1)))) ∧
    ({ start with run := .halted .hlt } : State).run = .halted .hlt :=
  ⟨⟨_, by decide, rfl⟩, rfl, rfl, rfl, ⟨rfl, rfl, by decide⟩, ⟨by decide, rfl⟩, rfl⟩

/-- A run that ends after one step. -/
theorem witness_EndOfRunIsUniqueAndLasting : ∃ t, Ends (holding [(0, 0x01#8)] 0) t := by
  refine ⟨_, 1, rfl, by decide, ?_⟩
  intro j hj u hu
  have : j = 0 := by omega
  subst this
  injection hu with hu
  subst hu
  rfl

/-- An operand at 8, and a well-formed instruction. -/
theorem witness_RegisterIndexAboveSevenFaults :
    (∃ x ∈ (Instr.st 7#8 8#8).registerOperands, 8 ≤ x.toNat) ∧ (Instr.st 7#8 7#8).wf = true := by decide

/-- The first operand at 8 and at 255, the second at 8, and a jump that is not taken. -/
theorem witness_FirstBadRegisterOperandIsReported :
    (Instr.prn 8#8).registerOperands.find? (fun y => decide (8 ≤ y.toNat)) = some 8#8 ∧
    (Instr.add 255#8 9#8).registerOperands.find? (fun y => decide (8 ≤ y.toNat)) = some 255#8 ∧
    (Instr.st 7#8 8#8).registerOperands.find? (fun y => decide (8 ≤ y.toNat)) = some 8#8 ∧
    (Instr.jeq 8#8).registerOperands.find? (fun y => decide (8 ≤ y.toNat)) = some 8#8 := by decide

set_option maxRecDepth 2000 in
theorem witness_DivideByZeroIsArithmeticFault :
    (startXY 5#8 0#8).reg 1 = 0#8 ∧
    fault? (exec (.mod 0#8 1#8) (startXY 5#8 0#8)) = some (.arithmetic .mod) ∧
    (atDivByZero.run = .running ∧ pendingLine (timerCheck atDivByZero) = none ∧
      memRead atDivByZero.pc atDivByZero = .ok 0xA3#8 ∧
      fetchInstr 0xA3#8 atDivByZero = .ok (.div 0#8 0#8) ∧
      fault? (exec (.div 0#8 0#8) (timerCheck atDivByZero)) = some (.arithmetic .div)) :=
  ⟨by decide, by decide, rfl, by decide, rfl, rfl, by decide⟩

theorem inv_start (m : Memory) (hm : m.wf = true) (sp : Int) (h0 : 0 ≤ sp) (h1 : sp ≤ 256) :
    Inv { start with mem := m, sp := sp } :=
  ⟨hm, Nat.zero_le _, h0, h1, fun r h => by cases h⟩

/-- The four boundary addresses, and the faulting accesses of PUSH, RET and interrupt entry. -/
theorem witness_MemoryBoundsPolicy :
    ((-1 : Int) < 0 ∧ (255 : Int) < 256 ∧ (0 : Int) ≤ 255 ∧ start.mem.wf = true) ∧
    (Inv { start with mem := [], sp := 0 } ∧
      exec (.push 0#8) { start with mem := [], sp := 0 } = .fault (.bounds (.mem (-1)))) ∧
    (Inv { start with mem := [], sp := 256 } ∧
      exec .ret { start with mem := [], sp := 256 } = .fault (.bounds (.mem 256))) ∧
    enterInterrupt 7 { start with mem := [], sp := 0 } = .error (.bounds (.mem (-1))) :=
  ⟨by decide, ⟨inv_start _ rfl _ (by decide) (by decide), rfl⟩, ⟨inv_start _ rfl _ (by decide) (by decide), rfl⟩,
    rfl⟩

theorem witness_DivModResults :
    (startXY 255#8 1#8).reg 1 ≠ 0#8 ∧ (startXY 255#8 255#8).reg 1 ≠ 0#8 ∧ (startXY 255#8 0#8).reg 1 = 0#8 := by
  decide

theorem witness_ShiftResults :
    8 ≤ ((startXY 1#8 8#8).reg 1).toNat ∧ 8 ≤ ((startXY 1#8 255#8).reg 1).toNat := by decide

theorem witness_AddThenSubRestores : (0 : RegIndex) ≠ 7 := by decide

theorem witness_StStoresOneByte : start.mem.wf = true ∧ (holding [(0, 1#8), (255, 1#8)] 0).mem.wf = true := by
  decide

/-- SP = 1 and 256 complete; 0 and 257 fault. -/
theorem witness_PushStoresBelowSp :
    start.mem.wf = true ∧ ((1 : Int) ≤ 1 ∧ (1 : Int) ≤ 256) ∧ ((1 : Int) ≤ 256 ∧ (256 : Int) ≤ 256) ∧
    (next? (exec (.push 0#8) { start with sp := 1 })).isSome = true ∧
    (next? (exec (.push 0#8) { start with sp := 256 })).isSome = true ∧
    fault? (exec (.push 0#8) { start with sp := 0 }) = some (.bounds (.mem (-1))) ∧
    fault? (exec (.push 0#8) { start with sp := 257 }) = some (.bounds (.mem 256)) := by decide

/-- SP = 0 and 255 complete; −1 and 256 fault. -/
theorem witness_PopLoadsFromSp :
    (next? (exec (.pop 0#8) { start with sp := 0 })).isSome = true ∧
    (next? (exec (.pop 0#8) { start with sp := 255 })).isSome = true ∧
    fault? (exec (.pop 0#8) { start with sp := -1 }) = some (.bounds (.mem (-1))) ∧
    fault? (exec (.pop 0#8) { start with sp := 256 }) = some (.bounds (.mem 256)) := by decide

theorem witness_PushThenPopMovesTheValue :
    start.mem.wf = true ∧ 1 ≤ start.sp ∧ start.sp ≤ 256 ∧
    (let s := { startXY 9#8 3#8 with sp := 1 }
     (next? (exec (.push 0#8) s)).bind (fun t => (next? (exec (.pop 1#8) t)).map fun u => (u.reg 1, u.sp)) =
       some (9#8, 1)) := by decide

/-- PC = 253 completes, 254 faults; SP = 1 and 256 complete, 0 and 257 fault. -/
theorem witness_CallPushesTheReturnAddress :
    start.mem.wf = true ∧
    (next? (exec (.call 0#8) { start with pc := 253, sp := 1 })).isSome = true ∧
    (next? (exec (.call 0#8) { start with pc := 253, sp := 256 })).isSome = true ∧
    fault? (exec (.call 0#8) { start with pc := 254, sp := 256 }) = some (.bounds (.retaddr 256)) ∧
    fault? (exec (.call 0#8) { start with pc := 253, sp := 0 }) = some (.bounds (.mem (-1))) ∧
    fault? (exec (.call 0#8) { start with pc := 253, sp := 257 }) = some (.bounds (.mem 256)) := by decide

theorem witness_RetPopsThePc :
    (next? (exec .ret { start with sp := 0 })).isSome = true ∧
    (next? (exec .ret { start with sp := 255 })).isSome = true ∧
    fault? (exec .ret { start with sp := -1 }) = some (.bounds (.mem (-1))) ∧
    fault? (exec .ret { start with sp := 256 }) = some (.bounds (.mem 256)) := by decide

/-- The state CALL leaves is itself one from which RET returns. -/
theorem witness_CallThenRetReturns :
    (let s : State := { start with pc := 253 }
     s.mem.wf = true ∧ s.pc ≤ 253 ∧ 1 ≤ s.sp ∧ s.sp ≤ 256 ∧
     (next? (exec (.call 0#8) s)).bind (fun t => (next? (exec .ret t)).map fun u => (u.pc, u.sp)) =
       some (255, 0xF4)) := by decide

/-- A row of each policy: HLT, JMP, RET, IRET, and a jump taken and not taken. -/
theorem witness_PcFollowsTheRowsPolicy :
    policyOf .hlt = .autoAdvance ∧ pcAfter .hlt start = some 1 ∧
    policyOf (.jmp 7#8) = .explicit ∧ pcAfter (.jmp 7#8) start = some 0xF4 ∧
    policyOf .ret = .explicit ∧ pcAfter .ret start = some 0 ∧
    policyOf .iret = .explicit ∧ pcAfter .iret { start with sp := 0 } = some 0 ∧
    policyOf (.jne 7#8) = .whenTaken ∧ pcAfter (.jne 7#8) start = some 0xF4 ∧
    pcAfter (.jeq 7#8) start = some 2 := by decide

theorem witness_TimerCheckSetsOnlyIsBitZero :
    start.timerFire = false ∧ ({ start with timerInput := [true] } : State).timerFire = true ∧
    ({ start with timerInput := [true] } : State).is.getLsbD 0 = false ∧ pending0.is.getLsbD 0 = true ∧
    (2 : RegIndex) ≠ 6 := by decide

/-- SP = 9 and 256, PC = 255. -/
theorem witness_InterruptEntrySavesNineBytes :
    (let s : State := { pending0 with pc := 255, sp := 9 }
     s.mem.wf = true ∧ s.pc ≤ 255 ∧ 9 ≤ s.sp ∧ s.sp ≤ 256 ∧ (enterInterrupt 0 s).toBool = true) ∧
    (enterInterrupt 7 { pending0 with pc := 255, sp := 256 }).toBool = true := by decide

/-- PC = 256; and SP = 0 and 8 with PC = 255. -/
theorem witness_InterruptEntryFaults :
    enterInterrupt 0 { pending0 with pc := 256, sp := 8 } = .error (.bounds (.retaddr 256)) ∧
    enterInterrupt 0 { pending0 with pc := 255, sp := 8 } = .error (.bounds (.mem (-1))) ∧
    enterInterrupt 7 { pending0 with pc := 255, sp := 0 } = .error (.bounds (.mem (-1))) := ⟨rfl, rfl, rfl⟩

/-- SP = 0 and 247 complete; 248, 249 and 256 fault. -/
theorem witness_IretPopsNineBytes :
    (next? (exec .iret { start with sp := 0 })).isSome = true ∧
    (next? (exec .iret { start with sp := 247 })).isSome = true ∧
    fault? (exec .iret { start with sp := 248 }) = some (.bounds (.mem 256)) ∧
    fault? (exec .iret { start with sp := 249 }) = some (.bounds (.mem 256)) ∧
    fault? (exec .iret { start with sp := 256 }) = some (.bounds (.mem 256)) := by decide

/-- V-INT's IRET, from the state entry leaves. -/
theorem witness_IretUndoesInterruptEntry :
    (beforeEntry.mem.wf = true ∧ beforeEntry.pc ≤ 255 ∧ 9 ≤ beforeEntry.sp ∧ beforeEntry.sp ≤ 256) ∧
    ((enterInterrupt 0 (timerCheck beforeEntry)).toOption.bind fun t =>
      (next? (exec .iret t)).map fun u => (u.pc, u.fl, u.sp, u.ie, u.regs)) =
        some (0x0A, 0b010#3, 0xF4, true, #v[1#8, 2#8, 3#8, 4#8, 5#8, 1#8, 0#8, 0xF4#8]) := by decide

theorem witness_FlagsWritersAndReaders :
    ((∀ a b, Instr.hlt ≠ .cmp a b) ∧ Instr.hlt ≠ .iret ∧ policyOf .hlt ≠ .whenTaken) ∧
    (policyOf (.jeq 7#8) = .whenTaken ∧ (Instr.jeq 7#8).wf = true ∧ pcAfter (.jeq 7#8) start = some 2) ∧
    (∃ t, exec (.cmp 7#8 0#8) start = .next t ∧ t.fl = 4#3) ∧
    (∃ t, exec .iret { start with sp := 247, mem := [(254, 0xFF#8)] } = .next t ∧ t.fl = 7#3) ∧
    (start.mem.wf = true ∧ (enterInterrupt 0 { start with sp := 9 }).toBool = true) :=
  ⟨⟨by simp, by simp, by decide⟩, by decide, ⟨_, rfl, rfl⟩, ⟨_, rfl, rfl⟩, by decide⟩

theorem witness_SpWritersAndReaders :
    ((∀ r, Instr.ret ≠ .push r) ∧ (∀ a, Instr.hlt ≠ .call a)) ∧
    (next? (exec (.push 7#8) start)).map (fun t => t.sp) = some 0xF3 ∧
    (next? (exec (.pop 7#8) start)).map (fun t => t.sp) = some 0xF5 ∧
    (next? (exec .iret start)).map (fun t => t.sp) = some 0xFD ∧
    (enterInterrupt 0 start).toOption.map (fun t => t.sp) = some 0xEB :=
  ⟨⟨by simp, by simp⟩, by decide⟩

/-- The last clause: a step that executes IRET with ie clear. -/
theorem witness_InterruptEnableWriters :
    (enterInterrupt 0 start).toOption.map (fun t => t.ie) = some false ∧
    (next? (exec .iret start)).map (fun t => t.ie) = some true ∧ Instr.hlt ≠ .iret ∧
    (let s : State := { holding [(0, 0x13#8)] 0 with ie := false }
     s.ie = false ∧ (next? (step s)).map (fun t => t.ie) = some true) := by decide

/-- The last clause: a step that changes the output, executing PRA. -/
theorem witness_OnlyPrintsAppendToTheOutput :
    ((∀ r, Instr.hlt ≠ .prn r) ∧ ∀ r, Instr.hlt ≠ .pra r) ∧
    (next? (exec (.prn 7#8) start)).map (fun t => t.out) = some [.dec 0xF4#8] ∧
    (∃ t, enterInterrupt 0 start = .ok t) ∧
    (next? (step (holding [(0, 0x48#8)] 0))).map (fun t => t.out) = some [.chr 0#8] ∧
    (holding [(0, 0x48#8)] 0).out = [] :=
  ⟨⟨by simp, by simp⟩, by decide, ⟨_, rfl⟩, by decide, rfl⟩

theorem witness_OnlyTheDestinationRegisterChanges :
    (∃ t, exec (.add 0#8 7#8) start = .next t) ∧ Instr.add 0#8 7#8 ≠ .iret ∧
    destination (.add 0#8 7#8) ≠ some (regByte 7) ∧ ∃ t, exec .iret start = .next t :=
  ⟨⟨_, rfl⟩, by decide, by decide, _, rfl⟩

theorem witness_OnlyTheStoredByteChanges :
    (∃ t, exec (.st 7#8 7#8) start = .next t ∧ t.byteAt 0xF4 = 0xF4#8) ∧
    storeAddress (.st 7#8 7#8) start = some 0xF4 ∧ storeAddress (.push 0#8) start = some 0xF3 ∧
    storeAddress (.call 0#8) { start with sp := 256 } = some 255 ∧ storeAddress .iret start = none :=
  ⟨⟨_, rfl, rfl⟩, by decide⟩

/-- A Running state at an ST that stores R1, the byte `v`, just after itself. -/
def atStoreAhead (pc : Nat) (v : Byte) : State :=
  ((holding [(pc, 0x84#8), (pc + 2, 1#8)] pc).setReg 0 (BitVec.ofNat 8 (pc + 3))).setReg 1 v

set_option maxRecDepth 2000 in
/-- The hypotheses, at 252 (the store into 255) and at 0, for HLT, for an opcode outside the map, and for LDI with
its operands in memory; and no line is pending in the next iteration. -/
theorem witness_StoredOpcodeIsFetchedNext :
    (∀ pv ∈ [(252, 0x01#8), (252, 0xFF#8), (0, 0x82#8)],
      (atStoreAhead pv.1 pv.2).run = .running ∧ (atStoreAhead pv.1 pv.2).mem.wf = true ∧
      ((timerCheck (atStoreAhead pv.1 pv.2)).reg 0).toNat = (atStoreAhead pv.1 pv.2).pc + 3 ∧
      (timerCheck (atStoreAhead pv.1 pv.2)).reg 1 = pv.2 ∧
      (next? (step (atStoreAhead pv.1 pv.2))).map (fun t => pendingLine (timerCheck t)) = some none) ∧
    Executes (atStoreAhead 252 0x01#8) (.st (regByte 0) (regByte 1)) ∧
    Executes (atStoreAhead 252 0xFF#8) (.st (regByte 0) (regByte 1)) ∧
    Executes (atStoreAhead 0 0x82#8) (.st (regByte 0) (regByte 1)) ∧
    (lookupOpcode 0xFF#8 = none ∧ ∃ row, lookupOpcode 0x82#8 = some row ∧ 0 + 3 + row.operands ≤ 255) ∧
    ((next? (step (atStoreAhead 252 0x01#8))).bind fun t => (next? (step t)).map fun u => (u.run, u.pc)) =
      some (.halted .hlt, 256) :=
  ⟨by decide, ⟨by decide, _, rfl, rfl⟩, ⟨by decide, _, rfl, rfl⟩, ⟨by decide, _, rfl, rfl⟩,
    ⟨rfl, _, rfl, by decide⟩, by decide⟩

/-- 256 bytes are accepted, 257 are not. -/
theorem witness_LoadWritesTheBytesVerbatim :
    State.reset.mem.wf = true ∧ State.reset.run = .idle ∧ start.run ≠ .idle ∧
    (List.replicate 256 (1#8)).length ≤ 256 ∧ 256 < (List.replicate 257 (1#8)).length ∧
    (load (List.replicate 257 (1#8)) State.reset).1 = .tooLong ∧
    load [] State.reset = (.accepted, State.reset) :=
  by
  rw [List.length_replicate, List.length_replicate, load, if_neg (by decide),
    if_pos (by rw [List.length_replicate]; decide)]
  exact ⟨rfl, rfl, by decide, by decide, by decide, rfl, rfl⟩

theorem witness_RunPortStartsTheCore :
    State.reset.run = .idle ∧ start.run = .running ∧
    ({ start with run := .halted .hlt } : State).run = .halted .hlt := ⟨rfl, rfl, rfl⟩

/-- An Idle, a Running and a Halted state of the invariant, each with its step. -/
theorem witness_EveryStepKeepsTheInvariant :
    (Inv { start with mem := [], sp := 256 } ∧ ∃ t, step { start with mem := [], sp := 256 } = .next t) ∧
    (Inv { start with run := .idle } ∧ ∃ t, step { start with run := .idle } = .next t) ∧
    Inv { start with run := .halted (.fault ⟨.invalidInstruction, 0, some 0xFF#8⟩) } := by
  refine ⟨⟨inv_start _ rfl _ (by decide) (by decide), _, rfl⟩, ⟨⟨by decide, by decide, by decide, by decide, ?_⟩, _, rfl⟩,
    ⟨by decide, by decide, by decide, by decide, ?_⟩⟩
  · intro r h
    cases h
  · intro r h
    injection h with h
    injection h with h
    subst h
    exact ⟨rfl, by simp, fun _ => ⟨_, rfl, rfl⟩⟩

end Sys2Proof.Tests
end

section
/-! ### The register-index check (10_state.md R21; 40_fetch_execute.md R125) -/

namespace Sys2Proof.Machine

/-- The computation raises no BoundsFault(reg). -/
def NoRegFault {α : Type} (x : Except Fault α) : Prop := ∀ n, x ≠ .error (.bounds (.reg n))

theorem noRegFault_ok {α : Type} (a : α) : NoRegFault (.ok a : Except Fault α) := fun _ => nofun

theorem noRegFault_error {α : Type} {f : Fault} (h : ∀ n, f ≠ .bounds (.reg n)) :
    NoRegFault (.error f : Except Fault α) := fun n e => h n (Except.error.inj e)

theorem noRegFault_bind {α β : Type} {x : Except Fault α} {g : α → Except Fault β} (hx : NoRegFault x)
    (hg : ∀ a, NoRegFault (g a)) : NoRegFault (x >>= g) := by
  intro n h
  rcases bind_error h with h | ⟨a, -, h⟩
  · exact hx n h
  · exact hg a n h

theorem noRegFault_map {α β : Type} {x : Except Fault α} {g : α → β} (hx : NoRegFault x) :
    NoRegFault (x.map g) := by
  cases x with
  | ok a => exact noRegFault_ok _
  | error f => exact fun n e => hx n (by cases e; rfl)

theorem noRegFault_ite {α : Type} {c : Prop} [Decidable c] {x y : Except Fault α} (hx : NoRegFault x)
    (hy : NoRegFault y) : NoRegFault (if c then x else y) := by
  split
  · exact hx
  · exact hy

theorem noRegFault_memWrite (a : Int) (v : Byte) (s : State) : NoRegFault (memWrite a v s) :=
  noRegFault_ite (noRegFault_ok _) (noRegFault_error (by simp))

theorem noRegFault_push (v : Byte) (s : State) : NoRegFault (push v s) :=
  noRegFault_bind (noRegFault_memWrite _ _ _) fun _ => noRegFault_ok _

theorem noRegFault_pushAddress (v : Nat) (s : State) : NoRegFault (pushAddress v s) :=
  noRegFault_ite (noRegFault_error (by simp)) (noRegFault_push _ _)

theorem noRegFault_pop (s : State) : NoRegFault (pop s) := by
  rcases pop_cases s with ⟨-, -, e⟩ | ⟨-, e⟩ <;> rw [e]
  · exact noRegFault_ok _
  · exact noRegFault_error (by simp)

theorem noRegFault_returnFromInterrupt (s : State) : NoRegFault (returnFromInterrupt s) := by
  intro n h
  obtain ⟨a, e⟩ := returnFromInterrupt_error h
  simp at e

theorem noRegFault_aluDiv (x y : Byte) : NoRegFault (aluDiv x y) :=
  noRegFault_ite (noRegFault_error (by simp)) (noRegFault_ok _)

theorem noRegFault_aluMod (x y : Byte) : NoRegFault (aluMod x y) :=
  noRegFault_ite (noRegFault_error (by simp)) (noRegFault_ok _)

theorem noRegFault_alu (op x y : Byte) : NoRegFault (alu op x y) := by
  unfold alu
  split
  case h_4 => exact noRegFault_map (noRegFault_aluDiv x y)
  case h_5 => exact noRegFault_map (noRegFault_aluMod x y)
  case h_13 => exact noRegFault_error (by simp)
  all_goals exact noRegFault_ok _

theorem ofHandler_ne_regFault {x : Except Fault State} (hx : NoRegFault x) (n : Nat) :
    ofHandler x ≠ .fault (.bounds (.reg n)) := fun h => hx n (ofHandler_fault h)

theorem withReg_regFault {x : Byte} {g : RegIndex → Except Fault State} {n : Nat}
    (hg : ∀ r, NoRegFault (g r)) (h : withReg x g = .fault (.bounds (.reg n))) :
    ∃ y ∈ [x], 8 ≤ y.toNat := by
  rcases withReg_fault h with ⟨hx, -⟩ | ⟨r, -, e⟩
  · exact ⟨x, by simp, hx⟩
  · exact (hg r n e).elim

theorem withRegs_regFault {x y : Byte} {g : RegIndex → RegIndex → Except Fault State} {n : Nat}
    (hg : ∀ a b, NoRegFault (g a b)) (h : withRegs x y g = .fault (.bounds (.reg n))) :
    ∃ z ∈ [x, y], 8 ≤ z.toNat := by
  rcases withRegs_fault h with ⟨hx, -⟩ | ⟨-, hy, -⟩ | ⟨a, b, -, -, e⟩
  · exact ⟨x, by simp, hx⟩
  · exact ⟨y, by simp, hy⟩
  · exact (hg a b n e).elim

/-- Only the check of an operand above 7 raises BoundsFault(reg): no handler does. -/
theorem exec_regFault {i : Instr} {s : State} {n : Nat} (h : exec i s = .fault (.bounds (.reg n))) :
    ∃ x ∈ i.registerOperands, 8 ≤ x.toNat := by
  cases i with
  | hlt => cases h
  | ret => exact absurd h (ofHandler_ne_regFault (noRegFault_bind (noRegFault_pop s) fun _ => noRegFault_ok _) n)
  | iret => exact absurd h (ofHandler_ne_regFault (noRegFault_returnFromInterrupt s) n)
  | ldi | prn | pra | jmp | jeq | jne | jgt | jge | jlt | jle =>
    exact withReg_regFault (fun _ => noRegFault_ok _) h
  | add | sub | mul | div | mod | cmp | and | or | xor | shl | shr =>
    exact withRegs_regFault (fun _ _ => noRegFault_bind (noRegFault_alu _ _ _) fun _ => noRegFault_ok _) h
  | not => exact withReg_regFault (fun _ => noRegFault_bind (noRegFault_alu _ _ _) fun _ => noRegFault_ok _) h
  | push => exact withReg_regFault (fun _ => noRegFault_bind (noRegFault_push _ _) fun _ => noRegFault_ok _) h
  | pop => exact withReg_regFault (fun _ => noRegFault_bind (noRegFault_pop _) fun _ => noRegFault_ok _) h
  | call =>
    exact withReg_regFault (fun _ => noRegFault_bind (noRegFault_pushAddress _ _) fun _ => noRegFault_ok _) h
  | st =>
    exact withRegs_regFault (fun _ _ => noRegFault_bind (noRegFault_memWrite _ _ _) fun _ => noRegFault_ok _) h

theorem withReg_firstBad {x y : Byte} {g : RegIndex → Except Fault State}
    (h : [x].find? (fun z => decide (8 ≤ z.toNat)) = some y) :
    withReg x g = .fault (.bounds (.reg y.toNat)) := by
  obtain ⟨hx, rfl⟩ : 8 ≤ x.toNat ∧ x = y := by simpa [List.find?_singleton] using h
  exact withReg_bad hx

theorem withRegs_firstBad {x y z : Byte} {g : RegIndex → RegIndex → Except Fault State}
    (h : [x, y].find? (fun z => decide (8 ≤ z.toNat)) = some z) :
    withRegs x y g = .fault (.bounds (.reg z.toNat)) := by
  by_cases hx : 8 ≤ x.toNat
  · obtain rfl : x = z := by simpa [hx] using h
    exact withRegs_bad_left hx
  · obtain ⟨hy, rfl⟩ : 8 ≤ y.toNat ∧ y = z := by simpa [hx, List.find?_singleton] using h
    exact withRegs_bad_right (by omega) hy

/-- The first register operand above 7, in the order A, B, is the fault of `exec`, whatever the state. -/
theorem exec_firstBad {i : Instr} {x : Byte}
    (h : i.registerOperands.find? (fun y => decide (8 ≤ y.toNat)) = some x) (s : State) :
    exec i s = .fault (.bounds (.reg x.toNat)) := by
  cases i with
  | hlt | ret | iret => cases h
  | ldi | prn | pra | not | push | pop | call | jmp | jeq | jne | jgt | jge | jlt | jle =>
    exact withReg_firstBad h
  | add | sub | mul | div | mod | cmp | and | or | xor | shl | shr | st => exact withRegs_firstBad h

theorem registerOperands_lt_of_wf {i : Instr} (h : i.wf = true) : ∀ x ∈ i.registerOperands, x.toNat < 8 := by
  simpa [Instr.wf] using h

end Sys2Proof.Machine

namespace Sys2Proof.Proofs

open Sys2Proof.Machine

/-- Settles O16: the first operand above 7 is reported in every state (`exec_firstBad`), and nothing but that
check raises BoundsFault(reg) (`exec_regFault`). -/
theorem registerIndexAboveSevenFaults : Obligations.RegisterIndexAboveSevenFaults := by
  intro i s
  refine ⟨fun ⟨y, hy, hbad⟩ => ?_, fun hwf n h => ?_⟩
  · obtain ⟨x, hx⟩ : ∃ x, i.registerOperands.find? (fun y => decide (8 ≤ y.toNat)) = some x :=
      Option.isSome_iff_exists.mp (List.find?_isSome.mpr ⟨y, hy, by simpa using hbad⟩)
    exact ⟨x, List.mem_of_find?_eq_some hx, by simpa using List.find?_some hx, exec_firstBad hx⟩
  · obtain ⟨x, hx, hbad⟩ := exec_regFault h
    have := registerOperands_lt_of_wf hwf x hx
    omega

end Sys2Proof.Proofs
end

section
/-! ### Updates that an instruction does not see

An update `f` of the state is independent of a field if the field reads the same after `f` and a write to the field
commutes with `f`. An instruction that touches only fields `f` is independent of does the same after `f`
(`exec_mapNext`): this is how a field is neither read nor written. -/

namespace Sys2Proof.Machine

open Sys2Proof.Safety

/-- The update `f` and the field that `get` reads and `set` writes do not meet. -/
structure Independent {α : Type} (f : State → State) (get : State → α) (set : State → α → State) : Prop where
  read : ∀ s, get (f s) = get s
  write : ∀ s v, set (f s) v = f (set s v)

/-- The update `f` is independent of SP. -/
abbrev KeepsSp (f : State → State) : Prop := Independent f State.sp fun s v => { s with sp := v }
/-- The update `f` is independent of FL. -/
abbrev KeepsFl (f : State → State) : Prop := Independent f State.fl fun s v => { s with fl := v }
/-- The update `f` is independent of ie. -/
abbrev KeepsIe (f : State → State) : Prop := Independent f State.ie fun s v => { s with ie := v }
/-- The update `f` is independent of the output. -/
abbrev KeepsOut (f : State → State) : Prop := Independent f State.out fun s v => { s with out := v }

/-- The update `f` is independent of the fields that instructions of every kind touch. -/
structure KeepsCore (f : State → State) : Prop where
  mem : Independent f State.mem fun s v => { s with mem := v }
  regs : Independent f State.regs fun s v => { s with regs := v }
  pc : Independent f State.pc fun s v => { s with pc := v }
  run : Independent f State.run fun s v => { s with run := v }

/-- PUSH, POP, CALL, RET and IRET: the instructions that touch SP (10_state.md R37). -/
def UsesSp (i : Instr) : Prop :=
  (∃ r, i = .push r) ∨ (∃ r, i = .pop r) ∨ (∃ a, i = .call a) ∨ i = .ret ∨ i = .iret

/-- CMP, the conditional jumps and IRET: the instructions that touch FL (10_state.md R31). -/
def UsesFl (i : Instr) : Prop := (∃ a b, i = .cmp a b) ∨ policyOf i = .whenTaken ∨ i = .iret

/-- PRN and PRA: the instructions that touch the output (10_state.md R41). -/
def Prints (i : Instr) : Prop := (∃ r, i = .prn r) ∨ ∃ r, i = .pra r

section operations

variable {f : State → State} (hf : KeepsCore f)
include hf

theorem KeepsCore.reg (s : State) (r : RegIndex) : (f s).reg r = s.reg r := by
  simp only [State.reg, hf.regs.read]

theorem KeepsCore.setReg (s : State) (r : RegIndex) (v : Byte) : (f s).setReg r v = f (s.setReg r v) := by
  simp only [State.setReg, hf.regs.read, hf.regs.write]

theorem KeepsCore.advance (s : State) (n : Nat) : (f s).advance n = f (s.advance n) := by
  simp only [State.advance, hf.pc.read, hf.pc.write]

theorem KeepsCore.jumpTo (s : State) (r : RegIndex) : (f s).jumpTo r = f (s.jumpTo r) := by
  simp only [State.jumpTo, hf.reg, hf.pc.write]

theorem KeepsCore.memRead (a : Int) (s : State) : memRead a (f s) = memRead a s :=
  memRead_of_mem_eq (hf.mem.read s) a

theorem KeepsCore.memWrite (a : Int) (v : Byte) (s : State) : memWrite a v (f s) = f <$> memWrite a v s := by
  simp only [Machine.memWrite, hf.mem.read, hf.mem.write]
  split <;> rfl

theorem KeepsCore.push (hsp : KeepsSp f) (v : Byte) (s : State) : push v (f s) = f <$> push v s := by
  simp only [Machine.push, hsp.read, hf.memWrite, bind_map_left, map_bind, hsp.write]
  rfl

theorem KeepsCore.pushAddress (hsp : KeepsSp f) (v : Nat) (s : State) :
    pushAddress v (f s) = f <$> pushAddress v s := by
  unfold Machine.pushAddress
  split
  · rfl
  · exact hf.push hsp _ s

theorem KeepsCore.pop (hsp : KeepsSp f) (s : State) : pop (f s) = (fun p => (p.1, f p.2)) <$> pop s := by
  simp only [Machine.pop, hsp.read, hf.memRead, map_bind, hsp.write]
  rfl

theorem KeepsCore.popRegisters (hsp : KeepsSp f) (rs : List RegIndex) :
    ∀ s, popRegisters rs (f s) = f <$> popRegisters rs s := by
  induction rs with
  | nil => intro s; rfl
  | cons r rest ih =>
    intro s
    simp only [Machine.popRegisters, hf.pop hsp, bind_map_left, map_bind, hf.setReg, ih]

/-- IRET after `f` is IRET and then `g`, where `g` is what is left of `f` once FL, PC and ie are written. -/
theorem KeepsCore.returnFromInterrupt (hsp : KeepsSp f) {g : State → State}
    (hg : ∀ s fl pc, { f s with fl := fl, pc := pc, ie := true } = g { s with fl := fl, pc := pc, ie := true })
    (s : State) : returnFromInterrupt (f s) = g <$> returnFromInterrupt s := by
  simp only [Machine.returnFromInterrupt, hf.popRegisters hsp, hf.pop hsp, bind_map_left, map_bind, hg]
  rfl

theorem KeepsCore.writeResult_value (s : State) (a : RegIndex) (v : Byte) :
    (f s).writeResult a (.value v) = f (s.writeResult a (.value v)) := hf.setReg s a v

end operations

theorem KeepsOut.emit {f : State → State} (h : KeepsOut f) (s : State) (e : OutputEvent) :
    (f s).emit e = f (s.emit e) := by
  simp only [State.emit, h.read, h.write]

theorem ofHandler_map (f : State → State) (x : Except Fault State) :
    ofHandler (f <$> x) = mapNext f (ofHandler x) := by
  cases x <;> rfl

theorem withReg_map {f : State → State} {x : Byte} {g g' : RegIndex → Except Fault State}
    (h : ∀ r, g' r = f <$> g r) : withReg x g' = mapNext f (withReg x g) := by
  simp only [withReg, h, ← ofHandler_map, map_bind]

theorem withRegs_map {f : State → State} {x y : Byte} {g g' : RegIndex → RegIndex → Except Fault State}
    (h : ∀ a b, g' a b = f <$> g a b) : withRegs x y g' = mapNext f (withRegs x y g) := by
  simp only [withRegs, h, ← ofHandler_map, map_bind]

end Sys2Proof.Machine
end

section
/-! ### An instruction that touches no field of an update commutes with it -/

namespace Sys2Proof.Machine

open Sys2Proof.Safety

/-- CMP is the only operation of the ALU that gives flags. -/
theorem alu_flags {op x y : Byte} {fl : BitVec 3} (h : alu op x y = .ok (.flags fl)) : op = 0xA7#8 := by
  unfold alu at h
  split at h
  case h_4 => cases hd : aluDiv x y <;> simp [hd, Except.map] at h
  case h_5 => cases hm : aluMod x y <;> simp [hm, Except.map] at h
  case h_6 hop => exact BitVec.eq_of_toNat_eq hop
  all_goals simp at h

section handlers

variable {f : State → State} (hf : KeepsCore f)
include hf

theorem KeepsCore.aluBinary {op : Byte} (hfl : op = 0xA7#8 → KeepsFl f) (a b : Byte) (s : State) :
    aluBinary op a b (f s) = mapNext f (aluBinary op a b s) := by
  refine withRegs_map fun ra rb => ?_
  simp only [hf.reg, map_bind]
  cases h : alu op (s.reg ra) (s.reg rb) with
  | error e => rfl
  | ok result =>
    cases result with
    | value v => exact congrArg Except.ok (by rw [hf.writeResult_value, hf.advance])
    | flags fl =>
      exact congrArg Except.ok (by
        rw [writeResult_flags, writeResult_flags, (hfl (alu_flags h)).write, hf.advance])

theorem KeepsCore.execNot (a : Byte) (s : State) : execNot a (f s) = mapNext f (execNot a s) := by
  refine withReg_map fun ra => ?_
  simp only [alu_not, bind_ok_eq, hf.reg, hf.writeResult_value, hf.advance]
  rfl

theorem KeepsCore.execHlt (s : State) : execHlt (f s) = mapNext f (execHlt s) := by
  simp only [Machine.execHlt, hf.run.write, hf.advance, ofHandler_ok, mapNext]

theorem KeepsCore.execLdi (r v : Byte) (s : State) : execLdi r v (f s) = mapNext f (execLdi r v s) :=
  withReg_map fun q => congrArg Except.ok (by rw [hf.setReg, hf.advance])

theorem KeepsCore.execPrn (hout : KeepsOut f) (r : Byte) (s : State) :
    execPrn r (f s) = mapNext f (execPrn r s) :=
  withReg_map fun q => congrArg Except.ok (by rw [hf.reg, hout.emit, hf.advance])

theorem KeepsCore.execPra (hout : KeepsOut f) (r : Byte) (s : State) :
    execPra r (f s) = mapNext f (execPra r s) :=
  withReg_map fun q => congrArg Except.ok (by rw [hf.reg, hout.emit, hf.advance])

theorem KeepsCore.execJmp (a : Byte) (s : State) : execJmp a (f s) = mapNext f (execJmp a s) :=
  withReg_map fun q => congrArg Except.ok (hf.jumpTo s q)

theorem KeepsCore.conditionalJump (hfl : KeepsFl f) (c : BitVec 3 → Bool) (a : Byte) (s : State) :
    conditionalJump c a (f s) = mapNext f (conditionalJump c a s) := by
  refine withReg_map fun q => congrArg Except.ok ?_
  rw [hfl.read, hf.jumpTo, hf.advance, apply_ite f]

theorem KeepsCore.execSt (a b : Byte) (s : State) : execSt a b (f s) = mapNext f (execSt a b s) := by
  refine withRegs_map fun ra rb => ?_
  simp only [indirectAddress, hf.reg, hf.memWrite, bind_map_left, map_bind, hf.advance]
  rfl

theorem KeepsCore.execPush (hsp : KeepsSp f) (r : Byte) (s : State) :
    execPush r (f s) = mapNext f (execPush r s) := by
  refine withReg_map fun q => ?_
  simp only [hf.reg, hf.push hsp, bind_map_left, map_bind, hf.advance]
  rfl

theorem KeepsCore.execPop (hsp : KeepsSp f) (r : Byte) (s : State) :
    execPop r (f s) = mapNext f (execPop r s) := by
  refine withReg_map fun q => ?_
  simp only [hf.pop hsp, bind_map_left, map_bind, hf.setReg, hf.advance]
  rfl

theorem KeepsCore.execCall (hsp : KeepsSp f) (a : Byte) (s : State) :
    execCall a (f s) = mapNext f (execCall a s) := by
  refine withReg_map fun q => ?_
  simp only [hf.reg, hf.pc.read, hf.pushAddress hsp, bind_map_left, map_bind, hf.pc.write]
  rfl

theorem KeepsCore.execRet (hsp : KeepsSp f) (s : State) : execRet (f s) = mapNext f (execRet s) := by
  simp only [Machine.execRet, ← ofHandler_map, hf.pop hsp, bind_map_left, map_bind, hf.pc.write]
  rfl

theorem KeepsCore.execIret (hsp : KeepsSp f) (hfl : KeepsFl f) (hie : KeepsIe f) (s : State) :
    execIret (f s) = mapNext f (execIret s) := by
  rw [Machine.execIret, Machine.execIret, ← ofHandler_map]
  exact congrArg ofHandler <| hf.returnFromInterrupt hsp
    (fun t fl pc =>
      (congrArg (fun u : State => { u with pc := pc, ie := true }) (hfl.write t fl)).trans <|
        (congrArg (fun u : State => { u with ie := true }) (hf.pc.write _ pc)).trans (hie.write _ true)) s

/-- An instruction commutes with an update of the state that is independent of every field the instruction
touches. -/
theorem exec_mapNext {i : Instr} (hsp : UsesSp i → KeepsSp f) (hfl : UsesFl i → KeepsFl f)
    (hie : i = .iret → KeepsIe f) (hout : Prints i → KeepsOut f) (s : State) :
    exec i (f s) = mapNext f (exec i s) := by
  cases i with
  | hlt => exact hf.execHlt s
  | ldi r v => exact hf.execLdi r v s
  | prn r => exact hf.execPrn (hout (by simp [Prints])) r s
  | pra r => exact hf.execPra (hout (by simp [Prints])) r s
  | add a b | sub a b | mul a b | div a b | mod a b | and a b | or a b | xor a b | shl a b | shr a b =>
    exact hf.aluBinary (fun h => absurd h (by decide)) a b s
  | cmp a b => exact hf.aluBinary (fun _ => hfl (by simp [UsesFl])) a b s
  | not a => exact hf.execNot a s
  | push r => exact hf.execPush (hsp (by simp [UsesSp])) r s
  | pop r => exact hf.execPop (hsp (by simp [UsesSp])) r s
  | call a => exact hf.execCall (hsp (by simp [UsesSp])) a s
  | ret => exact hf.execRet (hsp (by simp [UsesSp])) s
  | jmp a => exact hf.execJmp a s
  | jeq a | jne a | jgt a | jge a | jlt a | jle a =>
    exact hf.conditionalJump (hfl (.inr (.inl rfl))) _ a s
  | st a b => exact hf.execSt a b s
  | iret => exact hf.execIret (hsp (by simp [UsesSp])) (hfl (by simp [UsesFl])) (hie rfl) s

end handlers

/-- An instruction that commutes with an update which changes nothing in `s` leaves a state it changes nothing in. -/
theorem fixed_of_exec_mapNext {i : Instr} {f : State → State} {s t : State}
    (h : exec i (f s) = mapNext f (exec i s)) (hs : f s = s) (ht : exec i s = .next t) : f t = t := by
  rw [hs, ht] at h
  exact (Host.Outcome.next.inj h).symm

/-! ### Updates of one field -/

theorem keepsCore_withSp (v : Int) : KeepsCore fun s => { s with sp := v } := by
  constructor <;> exact ⟨fun _ => rfl, fun _ _ => rfl⟩

theorem keepsCore_withIe (v : Bool) : KeepsCore fun s => { s with ie := v } := by
  constructor <;> exact ⟨fun _ => rfl, fun _ _ => rfl⟩

theorem keepsCore_withOut (v : List OutputEvent) : KeepsCore fun s => { s with out := v } := by
  constructor <;> exact ⟨fun _ => rfl, fun _ _ => rfl⟩

/-- R37, second half: an instruction that is not on SP's list neither reads nor writes it. -/
theorem exec_withSp {i : Instr} (h : ¬ UsesSp i) (s : State) (v : Int) :
    exec i { s with sp := v } = mapNext (fun t => { t with sp := v }) (exec i s) := by
  refine exec_mapNext (keepsCore_withSp v) (fun hi => absurd hi h) ?_ ?_ ?_ s <;>
    exact fun _ => ⟨fun _ => rfl, fun _ _ => rfl⟩

/-- R38: an instruction other than IRET neither reads nor writes ie. -/
theorem exec_withIe {i : Instr} (h : i ≠ .iret) (s : State) (v : Bool) :
    exec i { s with ie := v } = mapNext (fun t => { t with ie := v }) (exec i s) := by
  refine exec_mapNext (keepsCore_withIe v) ?_ ?_ (fun hi => absurd hi h) ?_ s <;>
    exact fun _ => ⟨fun _ => rfl, fun _ _ => rfl⟩

/-- R41: an instruction other than PRN and PRA neither reads nor writes the output. -/
theorem exec_withOut {i : Instr} (h : ¬ Prints i) (s : State) (v : List OutputEvent) :
    exec i { s with out := v } = mapNext (fun t => { t with out := v }) (exec i s) := by
  refine exec_mapNext (keepsCore_withOut v) ?_ ?_ ?_ (fun hi => absurd hi h) s <;>
    exact fun _ => ⟨fun _ => rfl, fun _ _ => rfl⟩

/-- IRET sets ie and does not read it. -/
theorem execIret_withIe (s : State) (v : Bool) : exec .iret { s with ie := v } = exec .iret s :=
  congrArg ofHandler <| ((keepsCore_withIe v).returnFromInterrupt ⟨fun _ => rfl, fun _ _ => rfl⟩ (g := id)
    (fun _ _ _ => rfl) s).trans (id_map _)

end Sys2Proof.Machine
end

section
/-! ### SP, ie and the output (10_state.md R37, R38, R41) -/

namespace Sys2Proof.Machine

open Sys2Proof.Safety

theorem timerCheck_withSp (s : State) (v : Int) : timerCheck { s with sp := v } = { timerCheck s with sp := v } := by
  unfold timerCheck State.nextTimerInput State.timerFire
  cases s.timerInput <;> simp only <;> split <;> rfl

theorem exec_sp {i : Instr} {s t : State} (h : exec i s = .next t) :
    ((∃ r, i = .push r) ∨ (∃ a, i = .call a) → t.sp = s.sp - 1) ∧
      ((∃ r, i = .pop r) ∨ i = .ret → t.sp = s.sp + 1) ∧ (i = .iret → t.sp = s.sp + 9) := by
  refine ⟨?_, ?_, ?_⟩
  · rintro (⟨r, rfl⟩ | ⟨a, rfl⟩)
    · obtain ⟨q, -, -, -, rfl⟩ := execPush_next h
      rfl
    · obtain ⟨q, -, -, -, -, rfl⟩ := execCall_next h
      rfl
  · rintro (⟨r, rfl⟩ | rfl)
    · obtain ⟨q, -, -, -, rfl⟩ := execPop_next h
      rfl
    · obtain ⟨-, -, rfl⟩ := execRet_next h
      rfl
  · rintro rfl
    exact congrArg State.sp (execIret_next h).1

theorem exec_ie {i : Instr} {s t : State} (hi : i ≠ .iret) (h : exec i s = .next t) : t.ie = s.ie :=
  (congrArg State.ie (fixed_of_exec_mapNext (f := fun u => { u with ie := s.ie }) (exec_withIe hi s s.ie) rfl h)).symm

theorem exec_out {i : Instr} {s t : State} (hi : ¬ Prints i) (h : exec i s = .next t) : t.out = s.out :=
  (congrArg State.out
    (fixed_of_exec_mapNext (f := fun u => { u with out := s.out }) (exec_withOut hi s s.out) rfl h)).symm

theorem enterInterrupt_sp {i : Line} {s t : State} (h : enterInterrupt i s = .ok t) : t.sp = s.sp - 9 :=
  congrArg State.sp (enterInterrupt_state h).1

theorem enterInterrupt_ie {i : Line} {s t : State} (h : enterInterrupt i s = .ok t) : t.ie = false :=
  congrArg State.ie (enterInterrupt_state h).1

theorem enterInterrupt_out {i : Line} {s t : State} (h : enterInterrupt i s = .ok t) : t.out = s.out := by
  simpa using congrArg State.out (enterInterrupt_state h).1

theorem exec_iret_ie {s t : State} (h : exec .iret s = .next t) : t.ie = true :=
  congrArg State.ie (execIret_next h).1

theorem exec_prints {i : Instr} {s t : State} (hi : Prints i) (h : exec i s = .next t) :
    ∃ e, t.out = s.out ++ [e] := by
  rcases hi with ⟨r, rfl⟩ | ⟨r, rfl⟩
  · obtain ⟨q, -, rfl⟩ := execPrn_next h
    exact ⟨_, rfl⟩
  · obtain ⟨q, -, rfl⟩ := execPra_next h
    exact ⟨_, rfl⟩

/-- A step that changes a field which the timer check, a fault and `run()` leave alone enters an interrupt or
executes an instruction. -/
theorem step_changes {α : Type} {get : State → α} (hget : ∀ s r, get { s with run := r } = get s) {s t : State}
    (h : step s = .next t) (hne : get t ≠ get s) :
    (∃ i, enterInterrupt i (timerCheck s) = .ok t) ∨
      ∃ i, Executes s i ∧ exec i (timerCheck s) = .next t := by
  cases hr : s.run with
  | idle =>
    obtain rfl := Host.Outcome.next.inj ((step_idle hr).symm.trans h)
    exact absurd (hget s _) hne
  | halted o =>
    obtain rfl := Host.Outcome.next.inj ((step_halted hr).symm.trans h)
    exact absurd rfl hne
  | running =>
    rcases step_running_outcome hr h with ⟨i, -, hi⟩ | ⟨f, o, -, rfl⟩ | hx
    · exact .inl ⟨i, hi⟩
    · exact absurd (hget s _) hne
    · exact .inr hx

end Sys2Proof.Machine

namespace Sys2Proof.Proofs

open Sys2Proof.Machine

/-- Settles O47: the amounts are those of `exec_sp` and `enterInterrupt_sp`, and what is not on SP's list commutes
with an update of SP (`exec_withSp`, `timerCheck_withSp`). -/
theorem spWritersAndReaders : Obligations.SpWritersAndReaders := by
  refine ⟨fun i s v hpush hpop hcall hret hiret => exec_withSp ?_ s v, fun i s t => exec_sp,
    fun i s t => enterInterrupt_sp, timerCheck_withSp⟩
  rintro (⟨r, h⟩ | ⟨r, h⟩ | ⟨a, h⟩ | h | h)
  exacts [hpush r h, hpop r h, hcall a h, hret h, hiret h]

/-- Settles O48: an instruction other than IRET commutes with an update of ie (`exec_withIe`), and so keeps it
(`exec_ie`); of the two things a step that changes ie can do (`step_changes`), interrupt entry clears it, which
leaves IRET. -/
theorem interruptEnableWriters : Obligations.InterruptEnableWriters := by
  refine ⟨rfl, fun i s t => enterInterrupt_ie, fun s t => exec_iret_ie, execIret_withIe,
    fun i s v hi => exec_withIe hi s v, fun s t h hs ht => ?_⟩
  have hne : t.ie ≠ s.ie := by simp [hs, ht]
  rcases step_changes (get := State.ie) (fun _ _ => rfl) h hne with ⟨i, hi⟩ | ⟨i, -, hi⟩
  · simp [enterInterrupt_ie hi] at ht
  · by_cases e : i = .iret
    · exact e ▸ hi
    · exact absurd ((exec_ie e hi).trans (timerCheck_ie s)) hne

/-- Settles O49: an instruction other than PRN and PRA commutes with an update of the output (`exec_withOut`), and
so keeps it (`exec_out`); of the two things a step that changes the output can do (`step_changes`), interrupt entry
keeps it too, which leaves PRN and PRA. -/
theorem onlyPrintsAppendToTheOutput : Obligations.OnlyPrintsAppendToTheOutput := by
  refine ⟨rfl, fun i s v hprn hpra => exec_withOut ?_ s v, ?_, timerCheck_out, fun i s t => enterInterrupt_out,
    fun s t h hne => ?_⟩
  · rintro (⟨r, h⟩ | ⟨r, h⟩)
    exacts [hprn r h, hpra r h]
  · rintro r s t (h | h)
    · exact exec_prints (.inl ⟨r, rfl⟩) h
    · exact exec_prints (.inr ⟨r, rfl⟩) h
  · rcases step_changes (get := State.out) (fun _ _ => rfl) h hne with ⟨i, hi⟩ | ⟨i, hx, hi⟩
    · exact absurd ((enterInterrupt_out hi).trans (timerCheck_out s)) hne
    · by_cases hp : Prints i
      · obtain ⟨e, he⟩ := exec_prints hp hi
        rw [timerCheck_out] at he
        rcases hp with ⟨r, rfl⟩ | ⟨r, rfl⟩
        · exact ⟨_, r, e, .inl rfl, hx, hi, he⟩
        · exact ⟨_, r, e, .inr rfl, hx, hi, he⟩
      · exact absurd ((exec_out hp hi).trans (timerCheck_out s)) hne

end Sys2Proof.Proofs
end

section
/-! ### The opcode map's rows and the decoder (30_encoding.md R96, R97) -/

namespace Sys2Proof.Machine

theorem opcodeMap_opcodes_nodup : (opcodeMap.map OpcodeRow.opcode).Nodup := by decide

theorem lookupOpcode_isSome {op : Byte} :
    (lookupOpcode op).isSome = true ↔ ∃ row ∈ opcodeMap, row.opcode = op := by
  simp [lookupOpcode]

/-- A row is found by its own opcode byte, because no other row has it. -/
theorem lookupOpcode_opcode {row : OpcodeRow} (h : row ∈ opcodeMap) : lookupOpcode row.opcode = some row := by
  obtain ⟨found, hfound⟩ := Option.isSome_iff_exists.mp (lookupOpcode_isSome.mpr ⟨row, h, rfl⟩)
  obtain ⟨hmem, hop⟩ := lookupOpcode_some hfound
  rw [hfound, List.inj_on_of_nodup_map opcodeMap_opcodes_nodup hmem h hop]

/-- The numbers of the bytes that have a row are those of the rows' opcode bytes, each of them once. -/
theorem definedOpcodes_perm :
    ((List.range 256).filter fun n => (lookupOpcode (BitVec.ofNat 8 n)).isSome).Perm
      ((opcodeMap.map OpcodeRow.opcode).map BitVec.toNat) := by
  refine (List.perm_ext_iff_of_nodup (List.nodup_range.filter _)
    (opcodeMap_opcodes_nodup.map BitVec.toNat_injective)).mpr fun n => ?_
  rw [List.mem_filter, List.mem_range, lookupOpcode_isSome, List.map_map, List.mem_map]
  constructor
  · rintro ⟨hn, row, hrow, hop⟩
    exact ⟨row, hrow, by simp [hop, Nat.mod_eq_of_lt hn]⟩
  · rintro ⟨row, hrow, rfl⟩
    exact ⟨row.opcode.isLt, row, hrow, by simp⟩

/-- The bytes without a row are the 256 bytes but the 29 of the rows. -/
theorem undefinedOpcodes_length :
    ((List.range 256).filter fun n => (lookupOpcode (BitVec.ofNat 8 n)).isNone).length = 227 := by
  have hsplit := List.length_eq_length_filter_add (l := List.range 256)
    fun n => (lookupOpcode (BitVec.ofNat 8 n)).isSome
  rw [definedOpcodes_perm.length_eq] at hsplit
  simp only [Option.not_isSome, List.length_range, List.length_map] at hsplit
  have hrows : opcodeMap.length = 29 := rfl
  omega

/-- The encoding of what a row builds is the row's opcode byte and as many operand bytes as the row takes. -/
theorem encode_build {row : OpcodeRow} (h : row ∈ opcodeMap) (a b : Byte) :
    encode (row.build a b) = row.opcode :: [a, b].take row.operands := by
  revert row
  simp [opcodeMap, encode]

theorem opcodeOf_build {row : OpcodeRow} (h : row ∈ opcodeMap) (a b : Byte) :
    opcodeOf (row.build a b) = row.opcode := by
  rw [opcodeOf, encode_build h, List.headD_cons]

theorem lengthOf_build {row : OpcodeRow} (h : row ∈ opcodeMap) (a b : Byte) :
    lengthOf (row.build a b) = 1 + row.operands := by
  have hle := opcodeMap_operands_le row h
  rw [lengthOf, encode_build h, List.length_cons, List.length_take_of_le hle, Nat.add_comm]

/-- Decoding consumes the row's operand bytes where they follow. -/
theorem decode_ok {op : Byte} {row : OpcodeRow} {bytes : List Byte} (h : lookupOpcode op = some row)
    (hlen : row.operands ≤ bytes.length) :
    ∃ a b, decode (op :: bytes) = .ok (row.build a b, bytes.drop row.operands) := by
  rcases decode_cases bytes h with
    ⟨e, hd⟩ | ⟨e, rfl, -⟩ | ⟨e, a, tail, rfl, hd⟩ | ⟨e, hlt, -⟩ | ⟨e, a, b, tail, rfl, hd⟩
  · exact ⟨_, _, by rw [e]; exact hd⟩
  · simp [e] at hlen
  · exact ⟨_, _, by rw [e]; exact hd⟩
  · omega
  · exact ⟨_, _, by rw [e]; exact hd⟩

theorem decode_missingOperand {op : Byte} {row : OpcodeRow} {bytes : List Byte}
    (h : lookupOpcode op = some row) (hlen : bytes.length < row.operands) :
    decode (op :: bytes) = .error (.missingOperand op) := by
  rcases decode_cases bytes h with
    ⟨e, -⟩ | ⟨-, -, hd⟩ | ⟨e, a, tail, rfl, -⟩ | ⟨-, -, hd⟩ | ⟨e, a, b, tail, rfl, -⟩
  · omega
  · exact hd
  · simp [e] at hlen
  · exact hd
  · simp [e] at hlen

/-- The opcode byte alone decides how many of the bytes after it decoding needs. -/
theorem decode_isOk_iff {op : Byte} {row : OpcodeRow} {bytes : List Byte} (h : lookupOpcode op = some row) :
    (∃ i rest, decode (op :: bytes) = .ok (i, rest)) ↔ row.operands ≤ bytes.length := by
  refine ⟨fun ⟨i, rest, hd⟩ => ?_, fun hlen => ?_⟩
  · by_contra hlen
    rw [decode_missingOperand h (Nat.lt_of_not_le hlen)] at hd
    cases hd
  · obtain ⟨a, b, hd⟩ := decode_ok h hlen
    exact ⟨_, _, hd⟩

end Sys2Proof.Machine

namespace Sys2Proof.Proofs

open Sys2Proof.Machine

/-- Settles O3: decoding goes on exactly where the row's operand bytes follow (`decode_isOk_iff`), and then drops
them (`decode_ok`) and gives an instruction of the row, whose length is `lengthOf_build`. -/
theorem instructionLengthFollowsFromTheOpcode : Obligations.InstructionLengthFollowsFromTheOpcode := by
  intro op row bytes h
  refine ⟨(decode_isOk_iff h).symm, fun i rest hd => ?_⟩
  obtain ⟨a, b, hrow⟩ := decode_ok h ((decode_isOk_iff h).mp ⟨i, rest, hd⟩)
  obtain ⟨rfl, rfl⟩ := Prod.mk.inj (Except.ok.inj (hd.symm.trans hrow))
  exact ⟨rfl, lengthOf_build (lookupOpcode_some h).1 a b⟩

/-- Settles O4: the search compares whole opcode bytes (`lookupOpcode_some`), the rows' opcode bytes are distinct
(`lookupOpcode_opcode`), a row's instructions encode under its opcode byte (`opcodeOf_build`), and the bytes without
a row are the rest of the 256 (`undefinedOpcodes_length`). -/
theorem eachOpcodeHasExactlyOneRow : Obligations.EachOpcodeHasExactlyOneRow :=
  ⟨fun _ _ => lookupOpcode_some,
    fun row h => ⟨lookupOpcode_opcode h, opcodeMap_operands_le row h, opcodeOf_build h⟩, rfl, undefinedOpcodes_length⟩

end Sys2Proof.Proofs
end

section
/-! ### How an instruction moves PC and the run state, by its row's policy (40_fetch_execute.md R127, R129) -/

namespace Sys2Proof.Machine

@[simp] theorem writeResult_pc (s : State) (a : RegIndex) (result : AluResult) :
    (s.writeResult a result).pc = s.pc := by
  cases result <;> rfl

@[simp] theorem writeResult_run (s : State) (a : RegIndex) (result : AluResult) :
    (s.writeResult a result).run = s.run := by
  cases result <;> rfl

variable {i : Instr} {s t : State}

/-- The handler of an auto-advance row leaves PC, and HLT aside the run state, before PC moves on by the row's
length. -/
theorem exec_autoAdvance (hi : policyOf i = .autoAdvance) (h : exec i s = .next t) :
    ∃ u : State, t = u.advance (lengthOf i) ∧ u.pc = s.pc ∧ (i = .hlt ∨ u.run = s.run) := by
  cases i with
  | hlt => exact ⟨_, execHlt_next h, rfl, .inl rfl⟩
  | ldi =>
    obtain ⟨q, -, rfl⟩ := execLdi_next h
    exact ⟨_, rfl, rfl, .inr rfl⟩
  | prn =>
    obtain ⟨q, -, rfl⟩ := execPrn_next h
    exact ⟨_, rfl, rfl, .inr rfl⟩
  | pra =>
    obtain ⟨q, -, rfl⟩ := execPra_next h
    exact ⟨_, rfl, rfl, .inr rfl⟩
  | add | sub | mul | div | mod | cmp | and | or | xor | shl | shr =>
    obtain ⟨ra, rb, result, -, -, -, rfl⟩ := aluBinary_next h
    exact ⟨_, rfl, writeResult_pc s ra result, .inr (writeResult_run s ra result)⟩
  | not =>
    obtain ⟨ra, result, -, -, rfl⟩ := aluUnary_next h
    exact ⟨_, rfl, writeResult_pc s ra result, .inr (writeResult_run s ra result)⟩
  | push =>
    obtain ⟨q, -, -, -, rfl⟩ := execPush_next h
    exact ⟨_, rfl, rfl, .inr rfl⟩
  | pop =>
    obtain ⟨q, -, -, -, rfl⟩ := execPop_next h
    exact ⟨_, rfl, rfl, .inr rfl⟩
  | st =>
    obtain ⟨ra, rb, -, -, rfl⟩ := execSt_next h
    exact ⟨_, rfl, rfl, .inr rfl⟩
  | call | ret | jmp | jeq | jne | jgt | jge | jlt | jle | iret => cases hi

/-- The rows that set PC themselves are JMP and CALL, with a register's value, and RET and IRET, with a popped
byte; none of them ends the run. -/
theorem exec_explicit (hi : policyOf i = .explicit) (h : exec i s = .next t) :
    t.run = s.run ∧
      ((∃ r : RegIndex, (i = .jmp (regByte r) ∨ i = .call (regByte r)) ∧ t.pc = (s.reg r).toNat) ∨
        (i = .ret ∧ t.pc = (s.byteAt s.sp.toNat).toNat) ∨
        (i = .iret ∧ t.pc = (s.byteAt (s.sp + 8).toNat).toNat)) := by
  cases i with
  | jmp =>
    obtain ⟨q, rfl, rfl⟩ := execJmp_next h
    exact ⟨rfl, .inl ⟨q, .inl rfl, rfl⟩⟩
  | call =>
    obtain ⟨q, rfl, -, -, -, rfl⟩ := execCall_next h
    exact ⟨rfl, .inl ⟨q, .inr rfl, rfl⟩⟩
  | ret =>
    obtain ⟨-, -, rfl⟩ := execRet_next h
    exact ⟨rfl, .inr (.inl ⟨rfl, rfl⟩)⟩
  | iret =>
    obtain ⟨ht, -⟩ := execIret_next h
    exact ⟨(congrArg State.run ht :), .inr (.inr ⟨rfl, (congrArg State.pc ht :)⟩)⟩
  | hlt | ldi | prn | pra | add | sub | mul | div | mod | cmp | and | or | xor | shl | shr | not | push | pop
  | jeq | jne | jgt | jge | jlt | jle | st => cases hi

/-- A row that sets PC when taken is a conditional jump on its one register operand. -/
theorem exec_whenTaken (hi : policyOf i = .whenTaken) :
    ∃ (c : BitVec 3 → Bool) (a : Byte), i.registerOperands = [a] ∧ ∀ s, exec i s = conditionalJump c a s := by
  cases i with
  | jeq | jne | jgt | jge | jlt | jle => exact ⟨_, _, rfl, fun _ => rfl⟩
  | hlt | ldi | prn | pra | add | sub | mul | div | mod | cmp | and | or | xor | shl | shr | not | push | pop
  | call | ret | jmp | st | iret => cases hi

theorem conditionalJump_pc {c : BitVec 3 → Bool} {a : Byte} (h : conditionalJump c a s = .next t) :
    ∃ r : RegIndex, a = regByte r ∧ t.pc = if c s.fl then (s.reg r).toNat else s.pc + 2 := by
  obtain ⟨r, ha, rfl⟩ := conditionalJump_next h
  exact ⟨r, ha, apply_ite State.pc _ _ _⟩

theorem conditionalJump_run {c : BitVec 3 → Bool} {a : Byte} (h : conditionalJump c a s = .next t) :
    t.run = s.run := by
  obtain ⟨r, -, rfl⟩ := conditionalJump_next h
  split <;> rfl

/-- HLT alone changes the run state. -/
theorem exec_run (hi : i ≠ .hlt) (h : exec i s = .next t) : t.run = s.run := by
  cases hp : policyOf i with
  | autoAdvance =>
    obtain ⟨u, rfl, -, hu⟩ := exec_autoAdvance hp h
    exact hu.resolve_left hi
  | explicit => exact (exec_explicit hp h).1
  | whenTaken =>
    obtain ⟨c, a, -, e⟩ := exec_whenTaken hp
    exact conditionalJump_run ((e s).symm.trans h)

/-- A fault of decode or operand fetch is recorded with the opcode that was fetched. -/
theorem step_of_fetchInstr_error {op : Byte} {f : Fault} (hr : s.run = .running)
    (hp : pendingLine (timerCheck s) = none) (hop : memRead s.pc s = .ok op) (hf : fetchInstr op s = .error f) :
    step s = .next (takeFault s f (some op)) := by
  rw [step_running hr, iterate, hp]
  simp only [executeAtPc, timerCheck_pc, memRead_timerCheck, hop, fetchInstr_timerCheck, hf, settle]

/-- A fault of the handler is recorded with the opcode that was fetched. -/
theorem step_of_exec_fault {op : Byte} {f : Fault} (hr : s.run = .running)
    (hp : pendingLine (timerCheck s) = none) (hop : memRead s.pc s = .ok op) (hi : fetchInstr op s = .ok i)
    (hf : exec i (timerCheck s) = .fault f) : step s = .next (takeFault s f (some op)) := by
  obtain ⟨op', hop', -, e⟩ := step_of_executes hr ⟨hp, op, hop, hi⟩
  obtain rfl : op = op' := Except.ok.inj (hop.symm.trans hop')
  rw [e, hf, settle]

/-- R129: after Halted no iteration runs, however many steps are asked for. -/
theorem run_halted {o : RunOutcome} (h : s.run = .halted o) (k : Nat) : Sys2Proof.core.run k s = .next s := by
  have hstep : Sys2Proof.core.step s = .next s := step_halted h
  induction k with
  | zero => rfl
  | succ k ih => simp only [Host.Core.run, hstep, ih]

end Sys2Proof.Machine

namespace Sys2Proof.Proofs

open Sys2Proof.Machine

/-- Settles O14: HLT alone changes the run state (`exec_run`); a fault of the opcode fetch or of interrupt entry
ends the run by `step_of_raises`, one of decode, operand fetch or the handler with its opcode by
`step_of_fetchInstr_error` and `step_of_exec_fault`; and a Halted state stands (`run_halted`). -/
theorem hltAndFaultsEndTheRun : Obligations.HltAndFaultsEndTheRun := by
  refine ⟨fun s => ⟨_, rfl, rfl⟩, fun i s t => exec_run, fun s f hr => ⟨fun hp hf => ?_, fun op hp hop hf => ?_,
    fun i hp hf => ?_⟩, fun s o k h => run_halted h k⟩
  · obtain ⟨o, e⟩ := step_of_raises hr (.inr (.inl ⟨hp, hf⟩))
    exact ⟨_, o, e, rfl⟩
  · rcases hf with hf | ⟨i, hi, hf⟩
    · exact ⟨_, step_of_fetchInstr_error hr hp hop hf, rfl⟩
    · exact ⟨_, step_of_exec_fault hr hp hop hi hf, rfl⟩
  · obtain ⟨o, e⟩ := step_of_raises hr (.inl ⟨i, hp, hf⟩)
    exact ⟨_, o, e, rfl⟩

/-- Settles O38: one lemma for each policy (`exec_autoAdvance`, `exec_explicit`, `exec_whenTaken` with
`conditionalJump_pc`). -/
theorem pcFollowsTheRowsPolicy : Obligations.PcFollowsTheRowsPolicy := by
  refine ⟨fun i s t h => ⟨fun hi => ?_, fun hi => (exec_explicit hi h).2⟩, fun i hi => ?_⟩
  · obtain ⟨u, rfl, hu, -⟩ := exec_autoAdvance hi h
    rw [advance_pc, hu]
  · obtain ⟨c, a, ha, e⟩ := exec_whenTaken hi
    exact ⟨a, c, ha, fun s t h => conditionalJump_pc ((e s).symm.trans h)⟩

end Sys2Proof.Proofs
end

section
/-! ### DIV and MOD (41_alu.md R154, R155, R165) -/

namespace Sys2Proof.Machine

section binary

variable {op : Byte} {a b : RegIndex} {s : State}

/-- A two-operand ALU instruction whose operation gives a value writes it to register a and moves PC on by 3. -/
theorem aluBinary_of_value {v : Byte} (h : alu op (s.reg a) (s.reg b) = .ok (.value v)) :
    aluBinary op (regByte a) (regByte b) s = .next { s with regs := s.regs.set a.val v, pc := s.pc + 3 } := by
  rw [aluBinary, withRegs_regByte, h, bind_ok_eq, ofHandler_ok, writeResult_value, State.setReg, State.advance]

/-- A two-operand ALU instruction whose operation fails raises the operation's fault. -/
theorem aluBinary_of_error {f : Fault} (h : alu op (s.reg a) (s.reg b) = .error f) :
    aluBinary op (regByte a) (regByte b) s = .fault f := by
  rw [aluBinary, withRegs_regByte, h, bind_error_eq, ofHandler_error]

end binary

/-- The quotient fits a byte, so DIV's value is the bit vectors' own division. -/
theorem aluDiv_eq {x y : Byte} (h : y ≠ 0#8) : aluDiv x y = .ok (x / y) := by
  rw [aluDiv_ok h, ← BitVec.toNat_udiv, BitVec.ofNat_toNat, BitVec.setWidth_eq]

/-- The remainder fits a byte, so MOD's value is the bit vectors' own remainder. -/
theorem aluMod_eq {x y : Byte} (h : y ≠ 0#8) : aluMod x y = .ok (x % y) := by
  rw [aluMod_ok h, ← BitVec.toNat_umod, BitVec.ofNat_toNat, BitVec.setWidth_eq]

section divMod

variable {a b : RegIndex} {s : State}

theorem exec_div_of_ne_zero (h : s.reg b ≠ 0#8) : exec (.div (regByte a) (regByte b)) s =
    .next { s with regs := s.regs.set a.val (s.reg a / s.reg b), pc := s.pc + 3 } :=
  aluBinary_of_value (by rw [alu_div, aluDiv_eq h, Except.map])

theorem exec_mod_of_ne_zero (h : s.reg b ≠ 0#8) : exec (.mod (regByte a) (regByte b)) s =
    .next { s with regs := s.regs.set a.val (s.reg a % s.reg b), pc := s.pc + 3 } :=
  aluBinary_of_value (by rw [alu_mod, aluMod_eq h, Except.map])

theorem exec_div_of_zero (h : s.reg b = 0#8) :
    exec (.div (regByte a) (regByte b)) s = .fault (.arithmetic .div) :=
  aluBinary_of_error (by rw [h, alu_div, aluDiv_zero, Except.map])

theorem exec_mod_of_zero (h : s.reg b = 0#8) :
    exec (.mod (regByte a) (regByte b)) s = .fault (.arithmetic .mod) :=
  aluBinary_of_error (by rw [h, alu_mod, aluMod_zero, Except.map])

end divMod

end Sys2Proof.Machine

namespace Sys2Proof.Proofs

open Sys2Proof.Machine

/-- Settles O22: the results are the bit vectors' quotient and remainder (`exec_div_of_ne_zero`,
`exec_mod_of_ne_zero`), which are those of the natural numbers; a divisor of 0 is the operation's own fault. -/
theorem divModResults : Obligations.DivModResults := by
  refine fun a b s => ⟨fun h => ?_, fun h => ⟨exec_div_of_zero h, exec_mod_of_zero h⟩⟩
  have hpos : 0 < (s.reg b).toNat := Nat.pos_of_ne_zero (BitVec.toNat_ne.mp h)
  refine ⟨_, _, exec_div_of_ne_zero h, exec_mod_of_ne_zero h, BitVec.toNat_udiv, ?_, ?_, ?_⟩
  · rw [BitVec.toNat_umod, Nat.mod_eq_sub]
  · rw [BitVec.toNat_udiv, BitVec.toNat_umod, Nat.div_add_mod']
  · rw [BitVec.toNat_umod]
    exact Nat.mod_lt _ hpos

end Sys2Proof.Proofs
end

section
/-! ### What an instruction can raise (60_exceptions.md R301 to R304) -/

namespace Sys2Proof.Machine

/-- Every fault that the computation raises is a BoundsFault. -/
def RaisesOnlyBounds {α : Type} (x : Except Fault α) : Prop := ∀ f, x = .error f → ∃ c, f = .bounds c

theorem raisesOnlyBounds_ok {α : Type} (a : α) : RaisesOnlyBounds (.ok a : Except Fault α) := fun _ => nofun

theorem raisesOnlyBounds_error {α : Type} (c : BoundsCause) :
    RaisesOnlyBounds (.error (.bounds c) : Except Fault α) := fun _ e => ⟨c, (Except.error.inj e).symm⟩

theorem raisesOnlyBounds_bind {α β : Type} {x : Except Fault α} {g : α → Except Fault β}
    (hx : RaisesOnlyBounds x) (hg : ∀ a, RaisesOnlyBounds (g a)) : RaisesOnlyBounds (x >>= g) := by
  intro f h
  rcases bind_error h with h | ⟨a, -, h⟩
  · exact hx f h
  · exact hg a f h

theorem raisesOnlyBounds_memWrite (a : Int) (v : Byte) (s : State) : RaisesOnlyBounds (memWrite a v s) := by
  unfold memWrite
  split
  · exact raisesOnlyBounds_ok _
  · exact raisesOnlyBounds_error _

theorem raisesOnlyBounds_push (v : Byte) (s : State) : RaisesOnlyBounds (push v s) :=
  raisesOnlyBounds_bind (raisesOnlyBounds_memWrite _ _ _) fun _ => raisesOnlyBounds_ok _

theorem raisesOnlyBounds_pushAddress (v : Nat) (s : State) : RaisesOnlyBounds (pushAddress v s) := by
  unfold pushAddress
  split
  · exact raisesOnlyBounds_error _
  · exact raisesOnlyBounds_push _ _

theorem raisesOnlyBounds_pop (s : State) : RaisesOnlyBounds (pop s) := by
  rcases pop_cases s with ⟨-, -, e⟩ | ⟨-, e⟩ <;> rw [e]
  · exact raisesOnlyBounds_ok _
  · exact raisesOnlyBounds_error _

variable {i : Instr} {s : State} {f : Fault} {x y : Byte}

theorem withReg_bounds {g : RegIndex → Except Fault State} (hg : ∀ r, RaisesOnlyBounds (g r))
    (h : withReg x g = .fault f) : ∃ c, f = .bounds c := by
  rcases withReg_fault h with ⟨-, e⟩ | ⟨r, -, e⟩
  · exact ⟨_, e⟩
  · exact hg r f e

theorem withRegs_bounds {g : RegIndex → RegIndex → Except Fault State} (hg : ∀ a b, RaisesOnlyBounds (g a b))
    (h : withRegs x y g = .fault f) : ∃ c, f = .bounds c := by
  rcases withRegs_fault h with ⟨-, e⟩ | ⟨-, -, e⟩ | ⟨a, b, -, -, e⟩
  · exact ⟨_, e⟩
  · exact ⟨_, e⟩
  · exact hg a b f e

/-- A two-operand ALU instruction whose operation fails only on a divisor of 0 raises a BoundsFault for its operands,
or the operation's ArithmeticFault for that divisor. -/
theorem aluBinary_divisor_fault {op : Byte} {k : DivideKind} (hzero : ∀ v, alu op v 0#8 = .error (.arithmetic k))
    (hok : ∀ v w, w ≠ 0#8 → ∃ result, alu op v w = .ok result) (h : aluBinary op x y s = .fault f) :
    (∃ c, f = .bounds c) ∨
      f = .arithmetic k ∧ ∃ a b : RegIndex, x = regByte a ∧ y = regByte b ∧ s.reg b = 0#8 := by
  rcases withRegs_fault h with ⟨-, e⟩ | ⟨-, -, e⟩ | ⟨a, b, hx, hy, e⟩
  · exact .inl ⟨_, e⟩
  · exact .inl ⟨_, e⟩
  · by_cases hb : s.reg b = 0#8
    · rw [hb, hzero, bind_error_eq] at e
      exact .inr ⟨(Except.error.inj e).symm, a, b, hx, hy, hb⟩
    · obtain ⟨result, hr⟩ := hok (s.reg a) _ hb
      rw [hr, bind_ok_eq] at e
      cases e

/-- Everything an instruction can raise: a BoundsFault, or, by DIV or MOD with a divisor of 0, its
ArithmeticFault. -/
theorem exec_fault_cases (h : exec i s = .fault f) : (∃ c, f = .bounds c) ∨
    ∃ a b : RegIndex, s.reg b = 0#8 ∧ ((f = .arithmetic .div ∧ i = .div (regByte a) (regByte b)) ∨
      (f = .arithmetic .mod ∧ i = .mod (regByte a) (regByte b))) := by
  cases i with
  | div =>
    refine (aluBinary_divisor_fault (fun _ => rfl)
      (fun _ _ hw => ⟨_, by rw [alu_div, aluDiv_eq hw, Except.map]⟩) h).imp_right ?_
    rintro ⟨hf, a, b, rfl, rfl, hb⟩
    exact ⟨a, b, hb, .inl ⟨hf, rfl⟩⟩
  | mod =>
    refine (aluBinary_divisor_fault (fun _ => rfl)
      (fun _ _ hw => ⟨_, by rw [alu_mod, aluMod_eq hw, Except.map]⟩) h).imp_right ?_
    rintro ⟨hf, a, b, rfl, rfl, hb⟩
    exact ⟨a, b, hb, .inr ⟨hf, rfl⟩⟩
  | hlt => cases h
  | ldi | prn | pra | jmp | jeq | jne | jgt | jge | jlt | jle | not =>
    exact .inl (withReg_bounds (fun _ => raisesOnlyBounds_ok _) h)
  | add | sub | mul | cmp | and | or | xor | shl | shr =>
    exact .inl (withRegs_bounds (fun _ _ => raisesOnlyBounds_ok _) h)
  | st =>
    exact .inl (withRegs_bounds
      (fun _ _ => raisesOnlyBounds_bind (raisesOnlyBounds_memWrite _ _ _) fun _ => raisesOnlyBounds_ok _) h)
  | push =>
    exact .inl (withReg_bounds
      (fun _ => raisesOnlyBounds_bind (raisesOnlyBounds_push _ _) fun _ => raisesOnlyBounds_ok _) h)
  | pop =>
    exact .inl (withReg_bounds
      (fun _ => raisesOnlyBounds_bind (raisesOnlyBounds_pop _) fun _ => raisesOnlyBounds_ok _) h)
  | call =>
    exact .inl (withReg_bounds
      (fun _ => raisesOnlyBounds_bind (raisesOnlyBounds_pushAddress _ _) fun _ => raisesOnlyBounds_ok _) h)
  | ret =>
    have hpop := raisesOnlyBounds_bind (raisesOnlyBounds_pop s) fun p =>
      raisesOnlyBounds_ok { p.2 with pc := p.1.toNat }
    exact .inl (hpop f (ofHandler_fault h))
  | iret =>
    obtain ⟨a, e⟩ := returnFromInterrupt_error (ofHandler_fault h)
    exact .inl ⟨_, e⟩

/-- R128, R129: after a fault is taken the run stands. -/
theorem run_takeFault (s : State) (f : Fault) (o : Option Byte) (k : Nat) :
    Sys2Proof.core.run k (takeFault s f o) = .next (takeFault s f o) := run_halted rfl k

/-- The opcode fetch inside the address range gives the byte at PC. -/
theorem memRead_pc (h : s.pc ≤ 255) : memRead s.pc s = .ok (s.byteAt s.pc) :=
  memRead_ok (by omega) (by omega)

end Sys2Proof.Machine

namespace Sys2Proof.Proofs

open Sys2Proof.Machine

/-- Settles O12: the opcode is fetched (`memRead_pc`) and decode raises the fault (`fetchInstr_invalid`), which is
recorded with the opcode and ends the run; the bytes without a row were counted in `undefinedOpcodes_length`. -/
theorem invalidOpcodeHalts : Obligations.InvalidOpcodeHalts := by
  refine ⟨fun s hr hp hpc hop => ?_, rfl, undefinedOpcodes_length⟩
  exact ⟨_, step_of_fetchInstr_error hr hp (memRead_pc hpc) (fetchInstr_invalid hop), rfl, run_takeFault s _ _⟩

/-- Settles O18: a divisor of 0 is the operation's own fault (`exec_div_of_zero`, `exec_mod_of_zero`), every other
fault of an instruction is a BoundsFault (`exec_fault_cases`), and the fault ends the run. -/
theorem divideByZeroIsArithmeticFault : Obligations.DivideByZeroIsArithmeticFault := by
  refine ⟨fun a b s h => ⟨exec_div_of_zero h, exec_mod_of_zero h⟩, fun i s k h => ?_,
    fun s op i k hr hp hop hi hf => ⟨_, step_of_exec_fault hr hp hop hi hf, rfl, run_takeFault s _ _⟩⟩
  rcases exec_fault_cases h with ⟨c, e⟩ | ⟨a, b, hz, h⟩
  · cases e
  · exact ⟨a, b, hz, h.imp (And.imp_left Fault.arithmetic.inj) (And.imp_left Fault.arithmetic.inj)⟩

end Sys2Proof.Proofs
end

section
/-! ### Decoding and encoding are inverse (30_encoding.md sections 1 to 4) -/

namespace Sys2Proof.Machine

/-- A row of n < 2 operands ignores the operand bytes it does not have. -/
theorem build_congr {row : OpcodeRow} (h : row ∈ opcodeMap) {a a' b b' : Byte}
    (ha : 0 < row.operands → a = a') (hb : 1 < row.operands → b = b') : row.build a b = row.build a' b' := by
  revert row
  simp +contextual [opcodeMap]

/-- Decoding a row's opcode byte and its operand bytes gives the instruction the row builds from them. -/
theorem decode_row {op : Byte} {row : OpcodeRow} (h : lookupOpcode op = some row) (a b : Byte) (rest : List Byte) :
    decode (op :: ([a, b].take row.operands ++ rest)) = .ok (row.build a b, rest) := by
  have hmem := (lookupOpcode_some h).1
  have hle := opcodeMap_operands_le row hmem
  obtain hn | hn | hn : row.operands = 0 ∨ row.operands = 1 ∨ row.operands = 2 := by omega
  · simpa [decode, h, hn] using build_congr hmem (by omega) (by omega)
  · simpa [decode, h, hn] using build_congr hmem (fun _ => rfl) (by omega)
  · simp [decode, h, hn]

/-- Every instruction is built by the row of its own opcode byte. -/
theorem exists_build (i : Instr) : ∃ row a b, lookupOpcode (opcodeOf i) = some row ∧ i = row.build a b := by
  cases i with
  | hlt | ret | iret => exact ⟨_, 0#8, 0#8, rfl, rfl⟩
  | prn | pra | not | push | pop | call | jmp | jeq | jne | jgt | jge | jlt | jle => exact ⟨_, _, 0#8, rfl, rfl⟩
  | ldi | add | sub | mul | div | mod | cmp | and | or | xor | shl | shr | st => exact ⟨_, _, _, rfl, rfl⟩

theorem decode_encode (i : Instr) (rest : List Byte) : decode (encode i ++ rest) = .ok (i, rest) := by
  obtain ⟨row, a, b, hrow, rfl⟩ := exists_build i
  have hmem := (lookupOpcode_some hrow).1
  rw [encode_build hmem, List.cons_append]
  exact decode_row (lookupOpcode_opcode hmem) a b rest

/-- Bytes that decode begin with the opcode byte of a row, and the instruction is built from that row. -/
theorem decode_next {bytes rest : List Byte} {i : Instr} (h : decode bytes = .ok (i, rest)) :
    ∃ op tail row, bytes = op :: tail ∧ lookupOpcode op = some row ∧
      ∃ a b, i = row.build a b ∧ tail = [a, b].take row.operands ++ rest := by
  cases bytes with
  | nil => cases h
  | cons op tail =>
    cases hrow : lookupOpcode op with
    | none => simp [decode, hrow] at h
    | some row =>
      refine ⟨op, tail, row, rfl, hrow, ?_⟩
      rcases decode_cases tail hrow with
        ⟨hn, hd⟩ | ⟨-, -, hd⟩ | ⟨hn, a, after, rfl, hd⟩ | ⟨-, -, hd⟩ | ⟨hn, a, b, after, rfl, hd⟩ <;>
        cases h.symm.trans hd
      · exact ⟨_, _, rfl, by simp [hn]⟩
      · exact ⟨_, _, rfl, by simp [hn]⟩
      · exact ⟨_, _, rfl, by simp [hn]⟩

/-- Bytes that decode are the encoding of what they decode to. -/
theorem encode_of_decode {bytes rest : List Byte} {i : Instr} (h : decode bytes = .ok (i, rest)) :
    bytes = encode i ++ rest := by
  obtain ⟨op, tail, row, rfl, hrow, a, b, rfl, rfl⟩ := decode_next h
  obtain ⟨hmem, rfl⟩ := lookupOpcode_some hrow
  rw [encode_build hmem, List.cons_append]

/-- The layout AABCDDDD: AA is the operand count, and C marks the rows that set PC themselves. -/
theorem opcode_layout (i : Instr) : (opcodeOf i).toNat / 64 = lengthOf i - 1 ∧
    ((opcodeOf i).getLsbD 4 = true ↔ policyOf i ≠ .autoAdvance) := by
  cases i <;> simp [opcodeOf, encode, lengthOf, policyOf]

end Sys2Proof.Machine

namespace Sys2Proof.Proofs

open Sys2Proof.Machine

/-- Settles O1: an instruction is built by a row (`exists_build`), encodes as that row's opcode byte and operand bytes
(`encode_build`), and these decode to what the row builds (`decode_row`). -/
theorem decodeOfEncodeIsTheInstruction : Obligations.DecodeOfEncodeIsTheInstruction := decode_encode

/-- Settles O2: an instruction that decodes is built from a row (`decode_next`), and encodes as that row's opcode
byte and the operand bytes (`encode_build`). -/
theorem decodedBytesAreTheEncoding : Obligations.DecodedBytesAreTheEncoding := fun _ _ _ => encode_of_decode

/-- Settles O5 (`opcode_layout`). -/
theorem opcodeBitsFitTheTable : Obligations.OpcodeBitsFitTheTable := opcode_layout

/-- Settles O6: the first six words are encodings (`decode_encode`), and no row has the opcode 0xFF. -/
theorem wordsOfTheTableDecode : Obligations.WordsOfTheTableDecode :=
  ⟨decode_encode (.ldi 0#8 8#8) [], decode_encode (.add 0#8 1#8) [], decode_encode (.st 0#8 1#8) [],
    decode_encode (.call 1#8) [], decode_encode (.prn 0#8) [], decode_encode .iret [], rfl⟩

end Sys2Proof.Proofs
end

section
/-! ### What an instruction writes: memory and the registers (10_state.md section 1; 20_memory.md sections 1, 2) -/

namespace Sys2Proof.Machine

open Sys2Proof.Safety

@[simp] theorem writeResult_mem (s : State) (a : RegIndex) (result : AluResult) :
    (s.writeResult a result).mem = s.mem := by
  cases result <;> rfl

theorem writeResult_reg_other (s : State) {a r : RegIndex} (result : AluResult) (h : r ≠ a) :
    (s.writeResult a result).reg r = s.reg r := by
  cases result with
  | value v => exact reg_setReg_other s a r v h
  | flags fl => rfl

variable {i : Instr} {s t : State}

theorem conditionalJump_mem {c : BitVec 3 → Bool} {a : Byte} (h : conditionalJump c a s = .next t) :
    t.mem = s.mem := by
  obtain ⟨r, -, rfl⟩ := conditionalJump_next h
  split <;> rfl

/-- An instruction that completes writes one byte, inside the 256 cells, at its store address, or leaves memory
alone. -/
theorem exec_mem (h : exec i s = .next t) :
    t.mem = s.mem ∨ ∃ a v, a < 256 ∧ storeAddress i s = some a ∧ t.mem = s.mem.write a v := by
  cases i with
  | hlt =>
    obtain rfl := execHlt_next h
    exact .inl rfl
  | ldi =>
    obtain ⟨q, -, rfl⟩ := execLdi_next h
    exact .inl rfl
  | prn =>
    obtain ⟨q, -, rfl⟩ := execPrn_next h
    exact .inl rfl
  | pra =>
    obtain ⟨q, -, rfl⟩ := execPra_next h
    exact .inl rfl
  | add | sub | mul | div | mod | cmp | and | or | xor | shl | shr =>
    obtain ⟨ra, rb, result, -, -, -, rfl⟩ := aluBinary_next h
    exact .inl (writeResult_mem s ra result)
  | not =>
    obtain ⟨ra, result, -, -, rfl⟩ := aluUnary_next h
    exact .inl (writeResult_mem s ra result)
  | push =>
    obtain ⟨q, -, _, _, rfl⟩ := execPush_next h
    exact .inr ⟨_, _, by omega, rfl, rfl⟩
  | pop =>
    obtain ⟨q, -, -, -, rfl⟩ := execPop_next h
    exact .inl rfl
  | call =>
    obtain ⟨q, -, -, _, _, rfl⟩ := execCall_next h
    exact .inr ⟨_, _, by omega, rfl, rfl⟩
  | ret =>
    obtain ⟨-, -, rfl⟩ := execRet_next h
    exact .inl rfl
  | jmp =>
    obtain ⟨q, -, rfl⟩ := execJmp_next h
    exact .inl rfl
  | jeq | jne | jgt | jge | jlt | jle => exact .inl (conditionalJump_mem h)
  | st =>
    obtain ⟨ra, rb, rfl, -, rfl⟩ := execSt_next h
    exact .inr ⟨_, _, (s.reg ra).isLt, by rw [storeAddress, regOperand_regByte]; rfl, rfl⟩
  | iret => exact .inl (congrArg State.mem (execIret_next h).1 :)

/-- A completed instruction changes no register but its destination; IRET's are R0 to R6. -/
theorem exec_reg (hi : i ≠ .iret) (h : exec i s = .next t) {r : RegIndex}
    (hr : destination i ≠ some (regByte r)) : t.reg r = s.reg r := by
  cases i with
  | hlt =>
    obtain rfl := execHlt_next h
    rfl
  | ldi =>
    obtain ⟨q, rfl, rfl⟩ := execLdi_next h
    exact reg_setReg_other s q r _ (fun e => hr (by rw [e]; rfl))
  | prn =>
    obtain ⟨q, -, rfl⟩ := execPrn_next h
    rfl
  | pra =>
    obtain ⟨q, -, rfl⟩ := execPra_next h
    rfl
  | add | sub | mul | div | mod | and | or | xor | shl | shr =>
    obtain ⟨ra, rb, result, rfl, -, -, rfl⟩ := aluBinary_next h
    exact writeResult_reg_other s result (fun e => hr (by rw [e]; rfl))
  | cmp =>
    obtain ⟨ra, rb, result, -, -, hx, rfl⟩ := aluBinary_next h
    obtain rfl := Except.ok.inj ((alu_cmp _ _).symm.trans hx)
    rfl
  | not =>
    obtain ⟨ra, result, rfl, -, rfl⟩ := aluUnary_next h
    exact writeResult_reg_other s result (fun e => hr (by rw [e]; rfl))
  | push =>
    obtain ⟨q, -, -, -, rfl⟩ := execPush_next h
    rfl
  | pop =>
    obtain ⟨q, rfl, -, -, rfl⟩ := execPop_next h
    exact reg_setReg_other { s with sp := s.sp + 1 } q r _ (fun e => hr (by rw [e]; rfl))
  | call =>
    obtain ⟨q, -, -, -, -, rfl⟩ := execCall_next h
    rfl
  | ret =>
    obtain ⟨-, -, rfl⟩ := execRet_next h
    rfl
  | jmp =>
    obtain ⟨q, -, rfl⟩ := execJmp_next h
    rfl
  | jeq | jne | jgt | jge | jlt | jle =>
    obtain ⟨q, -, rfl⟩ := conditionalJump_next h
    split <;> rfl
  | st =>
    obtain ⟨ra, rb, -, -, rfl⟩ := execSt_next h
    rfl
  | iret => exact absurd rfl hi

end Sys2Proof.Machine

namespace Sys2Proof.Proofs

open Sys2Proof.Machine

/-- Settles O50: `exec_reg`, and for IRET `execIret_next`. -/
theorem onlyTheDestinationRegisterChanges : Obligations.OnlyTheDestinationRegisterChanges := by
  refine fun i s t h => ⟨fun hi r hr => exec_reg hi h hr, ?_⟩
  rintro rfl
  exact (execIret_next h).2.1

/-- Settles O51: the one write is at the store address (`exec_mem`), and a read elsewhere does not see it
(`read_write_other`). -/
theorem onlyTheStoredByteChanges : Obligations.OnlyTheStoredByteChanges := by
  intro i s t h x hx
  rw [State.byteAt, State.byteAt]
  rcases exec_mem h with e | ⟨a, v, -, ha, e⟩
  · rw [e]
  · rw [e, read_write_other (fun hxa : x = a => hx (hxa ▸ ha))]

end Sys2Proof.Proofs
end

section
/-! ### The invariant (10_state.md sections 2, 4; 20_memory.md section 1; 60_exceptions.md section 1) -/

namespace Sys2Proof.Machine

open Sys2Proof.Safety

variable {i : Instr} {s t : State}

theorem exec_mem_wf (h : exec i s = .next t) (hs : s.mem.wf = true) : t.mem.wf = true := by
  rcases exec_mem h with e | ⟨a, v, ha, -, e⟩ <;> rw [e]
  · exact hs
  · exact write_wf hs ha

theorem exec_sp_of_not_usesSp (hi : ¬ UsesSp i) (h : exec i s = .next t) : t.sp = s.sp :=
  (congrArg State.sp
    (fixed_of_exec_mapNext (f := fun u => { u with sp := s.sp }) (exec_withSp hi s s.sp) rfl h)).symm

/-- SP stays in [0,256]: an instruction that moves it past an end faults instead. -/
theorem exec_sp_range (h : exec i s = .next t) (h0 : 0 ≤ s.sp) (h1 : s.sp ≤ 256) :
    0 ≤ t.sp ∧ t.sp ≤ 256 := by
  by_cases hi : UsesSp i
  · rcases hi with ⟨r, rfl⟩ | ⟨r, rfl⟩ | ⟨a, rfl⟩ | rfl | rfl
    · obtain ⟨q, -, _, _, rfl⟩ := execPush_next h
      simp only [advance_sp]; omega
    · obtain ⟨q, -, _, _, rfl⟩ := execPop_next h
      simp only [advance_sp, setReg_sp]; omega
    · obtain ⟨q, -, -, _, _, rfl⟩ := execCall_next h
      simp only; omega
    · obtain ⟨_, _, rfl⟩ := execRet_next h
      simp only; omega
    · obtain ⟨ht, -, _, _⟩ := execIret_next h
      rw [congrArg State.sp ht]
      simp only; omega
  · rw [exec_sp_of_not_usesSp hi h]
    exact ⟨h0, h1⟩

theorem lengthOf_of_whenTaken (hi : policyOf i = .whenTaken) : lengthOf i = 2 := by
  cases i with
  | jeq | jne | jgt | jge | jlt | jle => rfl
  | hlt | ldi | prn | pra | add | sub | mul | div | mod | cmp | and | or | xor | shl | shr | not | push | pop
  | call | ret | jmp | st | iret => cases hi

/-- PC is that of the next instruction in memory, or a byte. -/
theorem exec_pc_le (h : exec i s = .next t) (hend : s.pc + lengthOf i ≤ 256) : t.pc ≤ 256 := by
  have hbyte : ∀ v : Byte, v.toNat ≤ 256 := fun v => by have := v.isLt; omega
  cases hp : policyOf i with
  | autoAdvance =>
    obtain ⟨u, rfl, hu, -⟩ := exec_autoAdvance hp h
    rwa [advance_pc, hu]
  | explicit =>
    rcases (exec_explicit hp h).2 with ⟨r, -, e⟩ | ⟨-, e⟩ | ⟨-, e⟩ <;> rw [e] <;> exact hbyte _
  | whenTaken =>
    obtain ⟨c, a, -, e⟩ := exec_whenTaken hp
    obtain ⟨r, -, hpc⟩ := conditionalJump_pc ((e s).symm.trans h)
    rw [hpc]
    split
    · exact hbyte _
    · rwa [lengthOf_of_whenTaken hp] at hend

/-- HLT ends the run; no other instruction changes the run state, so none records a fault. -/
theorem exec_run_cases (h : exec i s = .next t) : t.run = s.run ∨ i = .hlt ∧ t.run = .halted .hlt := by
  by_cases hi : i = .hlt
  · subst hi
    obtain rfl := execHlt_next h
    exact .inr ⟨rfl, rfl⟩
  · exact .inl (exec_run hi h)

/-- Interrupt entry keeps the clauses of the invariant, and the run state. -/
theorem enterInterrupt_inv {l : Line} (h : enterInterrupt l s = .ok t) (hs : s.mem.wf = true) :
    t.mem.wf = true ∧ t.pc ≤ 256 ∧ 0 ≤ t.sp ∧ t.sp ≤ 256 ∧ t.run = s.run := by
  obtain ⟨hst, h0, h1⟩ := enterInterrupt_state h
  obtain ⟨u, hu, ht⟩ := enterInterrupt_next h
  have hpc : t.pc ≤ 256 := by
    have := (u.byteAt (0xF8 + l.val)).isLt
    rw [congrArg State.pc ht]
    simp only
    omega
  have hsp : t.sp ≤ 256 := by
    rw [enterInterrupt_sp h]
    omega
  have hwf : u.mem.wf = true := pushAll_wf hu hs
  exact ⟨by rwa [ht], hpc, h0, hsp, (congrArg State.run hst :)⟩

/-- The record of a fault that a running step takes fits the state it leaves (60_exceptions.md R302, R304, R305). -/
theorem takeFault_record_fits {f : Fault} {o : Option Byte}
    (h : (∃ c, f = .bounds c) ∨ (f = .invalidInstruction ∧ ∃ op, o = some op ∧ lookupOpcode op = none) ∨
      ∃ i, exec i (timerCheck s) = .fault f) :
    RecordFits (takeFault s f o) ⟨f, s.pc, o⟩ := by
  rcases h with ⟨c, rfl⟩ | ⟨rfl, hop⟩ | ⟨i, hi⟩
  · exact ⟨rfl, nofun, nofun⟩
  · exact ⟨rfl, nofun, fun _ => hop⟩
  · rcases exec_fault_cases hi with ⟨c, rfl⟩ | ⟨a, b, -, ⟨rfl, -⟩ | ⟨rfl, -⟩⟩ <;> exact ⟨rfl, nofun, nofun⟩

theorem inv_reset : Inv State.reset where
  mem_wf := rfl
  pc_le := by decide
  sp_nonneg := by decide
  sp_le := by decide
  record_fits := nofun

/-- The invariant does not depend on the run state, as long as no fault is recorded. -/
theorem inv_of_no_fault (hwf : t.mem.wf = true) (hpc : t.pc ≤ 256) (h0 : 0 ≤ t.sp) (h1 : t.sp ≤ 256)
    (hrun : ∀ r, t.run ≠ .halted (.fault r)) : Inv t :=
  ⟨hwf, hpc, h0, h1, fun r hr => absurd hr (hrun r)⟩

/-- A running step keeps the invariant, in each of the three things it can do (`step_running_cases`). -/
theorem inv_of_running_step (hs : Inv s) (hr : s.run = .running) (h : step s = .next t) : Inv t := by
  obtain ⟨hwf, hpc, h0, h1, -⟩ := hs
  rcases step_running_cases hr h with ⟨l, -, hl⟩ | ⟨f, o, rfl, hf⟩ | ⟨i, row, bytes, -, -, hrow, hend, -, hi, hx⟩
  · obtain ⟨hwf, hpc, h0, h1, hrun⟩ := enterInterrupt_inv hl (by simpa using hwf)
    exact inv_of_no_fault hwf hpc h0 h1 (by simp [hrun, hr])
  · refine ⟨hwf, hpc, h0, h1, fun r e => ?_⟩
    obtain rfl : _ = r := RunOutcome.fault.inj (RunState.halted.inj e)
    exact takeFault_record_fits hf
  · have hlen : (timerCheck s).pc + lengthOf i ≤ 256 := by
      rw [hi, lengthOf_build (lookupOpcode_some hrow).1, timerCheck_pc]
      omega
    obtain ⟨h0, h1⟩ := exec_sp_range hx (by simpa using h0) (by simpa using h1)
    refine inv_of_no_fault (exec_mem_wf hx (by simpa using hwf)) (exec_pc_le hx hlen) h0 h1 fun r e => ?_
    rcases exec_run_cases hx with hrun | ⟨-, hrun⟩ <;> simp [e, hr] at hrun

end Sys2Proof.Machine

namespace Sys2Proof.Proofs

open Sys2Proof.Machine Sys2Proof.Safety

/-- Settles O57 (`inv_reset`). -/
theorem resetMeetsTheInvariant : Obligations.ResetMeetsTheInvariant := inv_reset

/-- Settles O58: `run()` changes the run state only, a Halted state stands, and a running step is
`inv_of_running_step`. -/
theorem everyStepKeepsTheInvariant : Obligations.EveryStepKeepsTheInvariant := by
  intro s t hs h
  cases hr : s.run with
  | idle =>
    obtain rfl := Host.Outcome.next.inj ((step_idle hr).symm.trans h)
    exact inv_of_no_fault hs.mem_wf hs.pc_le hs.sp_nonneg hs.sp_le nofun
  | running => exact inv_of_running_step hs hr h
  | halted o =>
    obtain rfl := Host.Outcome.next.inj ((step_halted hr).symm.trans h)
    exact hs

end Sys2Proof.Proofs
end

section
/-! ### The iteration (40_fetch_execute.md sections 1 and 2) -/

namespace Sys2Proof.Machine

open Sys2Proof.Safety

variable {s t : State}

theorem pendingLine_eq_none_iff : pendingLine s = none ↔ s.ie = false ∨ s.im &&& s.is = 0#8 := by
  unfold pendingLine
  cases s.ie with
  | false => simp
  | true =>
    rw [if_pos rfl]
    exact ⟨fun h => .inr (lowestSetBit_none h), fun h => by rw [h.resolve_left (by decide), lowestSetBit_zero]⟩

/-- A pending line is the lowest set bit of IM & IS. -/
theorem pendingLine_some {l : Line} (h : pendingLine s = some l) :
    (s.im &&& s.is).getLsbD l.val = true ∧ ∀ j : Line, j < l → (s.im &&& s.is).getLsbD j.val = false := by
  unfold pendingLine at h
  split at h
  · exact lowestSetBit_some h
  · cases h

theorem step_of_pendingLine {l : Line} (hr : s.run = .running) (hp : pendingLine (timerCheck s) = some l) :
    step s = settle s none (ofHandler (enterInterrupt l (timerCheck s))) := by
  rw [step_running hr, iterate, hp]

theorem step_of_no_pendingLine (hr : s.run = .running) (hp : pendingLine (timerCheck s) = none) :
    step s = executeAtPc s (timerCheck s) := by
  rw [step_running hr, iterate, hp]

/-- A fault of the opcode fetch is recorded without an opcode. -/
theorem step_of_memRead_error {f : Fault} (hr : s.run = .running) (hp : pendingLine (timerCheck s) = none)
    (hf : memRead s.pc s = .error f) : step s = .next (takeFault s f none) := by
  rw [step_of_no_pendingLine hr hp]
  simp only [executeAtPc, timerCheck_pc, memRead_timerCheck, hf, settle]

theorem step_of_executes_next {i : Instr} (hr : s.run = .running) (hi : Executes s i)
    (hx : exec i (timerCheck s) = .next t) : step s = .next t := by
  obtain ⟨op, -, -, e⟩ := step_of_executes hr hi
  rw [e, hx, settle]

/-- Settling leaves a next state unless the handler refuses. -/
theorem settle_next {o : Option Byte} {x : Host.Outcome State Fault Refusal} (h : ∀ r, x ≠ .refused r) :
    ∃ t, settle s o x = .next t := by
  cases x with
  | next t => exact ⟨t, rfl⟩
  | fault f => exact ⟨_, rfl⟩
  | refused r => exact absurd rfl (h r)

theorem iterate_next (s : State) : ∃ t, iterate s = .next t := by
  rcases iterate_cases s with ⟨l, -, e⟩ | ⟨-, -, e⟩ | ⟨-, -, f, -, e⟩ | ⟨-, -, i, -, e⟩ <;> rw [e]
  · exact settle_next fun r => ofHandler_not_refused
  · exact ⟨_, rfl⟩
  · exact ⟨_, rfl⟩
  · exact settle_next (exec_not_refused i (timerCheck s))

theorem enterInterrupt_run {l : Line} (h : enterInterrupt l s = .ok t) : t.run = s.run :=
  (congrArg State.run (enterInterrupt_state h).1 :)

/-- A running step that ends in a fault is one in which something raises it. -/
theorem raises_of_step_halted {r : FaultRecord} (hr : s.run = .running) (h : step s = .next t)
    (ht : t.run = .halted (.fault r)) : ∃ f o, Raises s f ∧ t = takeFault s f o := by
  rcases step_running_outcome hr h with ⟨l, -, hl⟩ | hf | ⟨i, -, hx⟩
  · simp [enterInterrupt_run hl, hr] at ht
  · exact hf
  · rcases exec_run_cases hx with e | ⟨-, e⟩ <;> simp [ht, hr] at e

/-- A running step that ends with HLT's outcome is one that executes HLT. -/
theorem executes_hlt_of_step_halted (hr : s.run = .running) (h : step s = .next t)
    (ht : t.run = .halted .hlt) : Executes s .hlt ∧ exec .hlt (timerCheck s) = .next t := by
  rcases step_running_outcome hr h with ⟨l, -, hl⟩ | ⟨f, o, -, rfl⟩ | ⟨i, hi, hx⟩
  · simp [enterInterrupt_run hl, hr] at ht
  · simp at ht
  · rcases exec_run_cases hx with e | ⟨rfl, -⟩
    · simp [ht, hr] at e
    · exact ⟨hi, hx⟩

theorem step_running_run (hr : s.run = .running) (h : step s = .next t) :
    t.run = .running ∨ t.run = .halted .hlt ∨ ∃ r, t.run = .halted (.fault r) := by
  rcases step_running_outcome hr h with ⟨l, -, hl⟩ | ⟨f, o, -, rfl⟩ | ⟨i, -, hx⟩
  · exact .inl (by simp [enterInterrupt_run hl, hr])
  · exact .inr (.inr ⟨_, rfl⟩)
  · exact (exec_run_cases hx).imp (fun e => by simp [e, hr]) fun e => .inl e.2

/-! ### The fetch of a whole instruction -/

/-- The fetched instruction of a row is built from the two bytes after the opcode, where those the row takes are
inside memory. -/
theorem fetchInstr_row {op : Byte} {row : OpcodeRow} (h : lookupOpcode op = some row)
    (hend : s.pc + 1 + row.operands ≤ 256) :
    fetchInstr op s = .ok (row.build (s.byteAt (s.pc + 1)) (s.byteAt (s.pc + 2))) := by
  obtain ⟨bytes, hbytes, e⟩ := fetchInstr_ok h hend
  obtain rfl := Except.ok.inj ((fetchBytes_ok hend).symm.trans hbytes)
  rw [e]
  refine congrArg _ (build_congr (lookupOpcode_some h).1 (fun h0 => ?_) fun h1 => ?_)
  · simp [h0]
  · simp [h1, Nat.add_assoc]

/-- Where the bytes at PC decode to an instruction, fetching gives it. -/
theorem fetch_of_decode {bytes : List Byte} {i : Instr}
    (hd : decode bytes = .ok (i, [])) (hend : s.pc + bytes.length ≤ 256)
    (hb : ∀ k (h : k < bytes.length), s.byteAt (s.pc + k) = bytes[k]) :
    ∃ op, bytes.head? = some op ∧ memRead s.pc s = .ok op ∧ fetchInstr op s = .ok i := by
  obtain ⟨op, tail, row, rfl, hrow, a, b, rfl, htail⟩ := decode_next hd
  have hmem := (lookupOpcode_some hrow).1
  have hn := opcodeMap_operands_le row hmem
  rw [List.append_nil] at htail
  subst htail
  rw [List.length_cons, List.length_take_of_le hn] at hend
  have hop : s.byteAt s.pc = op := hb 0 (by simp)
  refine ⟨op, rfl, by rw [memRead_pc (by omega), hop], ?_⟩
  rw [fetchInstr_row hrow (by omega)]
  refine congrArg _ (build_congr hmem (fun h0 => ?_) fun h1 => ?_)
  · exact (hb 1 (by simp; omega)).trans (List.getElem_take (i := 0))
  · exact (hb 2 (by simp; omega)).trans (List.getElem_take (i := 1))

/-! ### Runs -/

/-- A run of k + j steps is the run of j steps from where the first k lead. -/
theorem run_add {k : Nat} : ∀ {s t : State}, Sys2Proof.core.run k s = .next t → ∀ j,
    Sys2Proof.core.run (k + j) s = Sys2Proof.core.run j t := by
  induction k with
  | zero =>
    intro s t h j
    obtain rfl := Host.Outcome.next.inj h
    rw [Nat.zero_add]
  | succ k ih =>
    intro s t h j
    rw [Nat.succ_add]
    simp only [Host.Core.run] at h ⊢
    split at h
    · exact ih h j
    · cases h
    · cases h

theorem halted_of_outcome (h : outcome s ≠ none) : ∃ o, s.run = .halted o := by
  unfold outcome at h
  split at h
  · exact ⟨_, ‹_›⟩
  · exact absurd rfl h

theorem outcome_eq_none (h : s.run = .idle ∨ s.run = .running) : outcome s = none := by
  rcases h with h | h <;> rw [outcome, h]

end Sys2Proof.Machine

namespace Sys2Proof.Proofs

open Sys2Proof.Machine Sys2Proof.Safety

/-- Settles O7: the bytes at PC are what the iteration executes (`fetch_of_decode`), and a fault is recorded with
the first of them. -/
theorem stepRunsTheDecodedInstruction : Obligations.StepRunsTheDecodedInstruction := by
  intro s bytes i hr hp hd hend hb
  obtain ⟨op, hhead, hop, hi⟩ := fetch_of_decode hd hend hb
  refine ⟨fun t => step_of_executes_next hr ⟨hp, op, hop, hi⟩, fun f hf => ?_⟩
  rw [step_of_exec_fault hr hp hop hi hf, hhead, takeFault]

/-- Settles O8: a line is pending exactly where ie is set and IM & IS is not 0 (`pendingLine_eq_none_iff`), and then
it is the lowest (`pendingLine_some`). -/
theorem iterationTakesOneInterruptOrExecutes : Obligations.IterationTakesOneInterruptOrExecutes := by
  refine fun s hr => ⟨fun hie hset => ?_, fun h => step_of_no_pendingLine hr (pendingLine_eq_none_iff.mpr h)⟩
  have hpending : pendingLine (timerCheck s) ≠ none := fun hn => by
    rcases pendingLine_eq_none_iff.mp hn with h | h
    · cases h.symm.trans hie
    · exact hset h
  obtain ⟨l, hl⟩ := Option.ne_none_iff_exists'.mp hpending
  obtain ⟨hbit, hlow⟩ := pendingLine_some hl
  refine ⟨l, hbit, hlow, fun t ht => ?_, fun f hf => ?_⟩
  · rw [step_of_pendingLine hr hl, ht, ofHandler_ok, settle]
  · rw [step_of_pendingLine hr hl, hf, ofHandler_error, settle, takeFault]

/-- Settles O9: an iteration leaves a next state because no handler refuses (`iterate_next`). -/
theorem everyStepGivesANextState : Obligations.EveryStepGivesANextState := by
  intro s
  cases hr : s.run with
  | idle => exact ⟨_, step_idle hr⟩
  | running => rw [step_running hr]; exact iterate_next s
  | halted o => exact ⟨_, step_halted hr⟩

/-- Settles O10: what a running step can do (`step_running_outcome`) fixes its run state, and conversely HLT and a
raised fault fix the step (`execHlt_next`, `step_of_raises`). -/
theorem runStateMovesOnlyAsTheTableSays : Obligations.RunStateMovesOnlyAsTheTableSays := by
  refine fun s t h => ⟨fun hr => ?_, fun hr => ⟨step_running_run hr h, ⟨executes_hlt_of_step_halted hr h, ?_⟩,
    fun f => ⟨?_, fun hf => ?_⟩⟩, fun o hr => ?_⟩
  · exact Host.Outcome.next.inj (h.symm.trans (step_idle hr))
  · rintro ⟨-, hx⟩
    obtain rfl := execHlt_next hx
    rfl
  · rintro ⟨r, ht, rfl⟩
    obtain ⟨f, o, hf, rfl⟩ := raises_of_step_halted hr h ht
    obtain rfl : _ = r := RunOutcome.fault.inj (RunState.halted.inj ht)
    exact hf
  · obtain ⟨o, e⟩ := step_of_raises hr hf
    obtain rfl := Host.Outcome.next.inj (h.symm.trans e)
    exact ⟨_, rfl, rfl⟩
  · exact Host.Outcome.next.inj (h.symm.trans (step_halted hr))

/-- Settles O11: the step is a taken fault (`raises_of_step_halted`). -/
theorem faultingIterationCommitsNothing : Obligations.FaultingIterationCommitsNothing := by
  intro s t r hr h ht
  obtain ⟨f, o, -, rfl⟩ := raises_of_step_halted hr h ht
  obtain rfl : _ = r := RunOutcome.fault.inj (RunState.halted.inj ht)
  exact ⟨rfl, rfl⟩

/-- Settles O13: the opcode fetch faults at 256 (`memRead_fault`), and so does the operand fetch that reaches it
(`fetchInstr_fault`), before the handler checks any index. -/
theorem fetchPastTheEndFaults : Obligations.FetchPastTheEndFaults := by
  refine fun s hr hp => ⟨fun hpc => ?_, fun row hpc hrow hend => ?_⟩
  · have hread : memRead s.pc s = .error (.bounds (.mem 256)) := by rw [hpc]; exact memRead_fault (.inr (by decide))
    rw [step_of_memRead_error hr hp hread, takeFault, hpc]
  · rw [step_of_fetchInstr_error hr hp (memRead_pc hpc) (fetchInstr_fault hrow (by omega) (by omega)), takeFault]

/-- Settles O15: of two ends neither can come before the other, which is the first Halted state, and so both are
after equally many steps; from a Halted state on a run stands (`run_halted`). -/
theorem endOfRunIsUniqueAndLasting : Obligations.EndOfRunIsUniqueAndLasting := by
  rintro s t ⟨k, ht, hend, hfirst⟩
  refine ⟨?_, k, fun j => ?_⟩
  · rintro u ⟨n, hu, hend', hfirst'⟩
    rcases Nat.lt_trichotomy k n with hlt | rfl | hlt
    · exact absurd (hfirst' k hlt t ht) hend
    · exact Host.Outcome.next.inj (hu.symm.trans ht)
    · exact absurd (hfirst n hlt u hu) hend'
  · obtain ⟨o, ho⟩ := halted_of_outcome hend
    exact (run_add ht j).trans (run_halted ho j)

/-- Settles O56: `run()` by the run state. -/
theorem runPortStartsTheCore : Obligations.RunPortStartsTheCore := by
  refine fun s => ⟨fun hr => ?_, fun o hr => ?_, outcome_eq_none⟩
  · have hrun : hostRun s = { s with run := .running } := by rw [hostRun, hr]
    exact ⟨hrun, by rw [step_idle hr, hrun]⟩
  · exact ⟨by rw [hostRun, hr], by rw [outcome, hr]⟩

end Sys2Proof.Proofs
end

section
/-! ### Faults of operands, of the ALU and of memory (41_alu.md section 1; 20_memory.md section 1) -/

namespace Sys2Proof.Machine

open Sys2Proof.Safety

/-- The ALU's 12 operation codes (41_alu.md R151 to R163). -/
def aluCodes : List Byte :=
  [0xA0#8, 0xA1#8, 0xA2#8, 0xA3#8, 0xA4#8, 0xA7#8, 0xA8#8, 0xAA#8, 0xAB#8, 0xAC#8, 0xAD#8, 0x69#8]

theorem aluDiv_error {x y : Byte} {f : Fault} (h : aluDiv x y = .error f) : f = .arithmetic .div := by
  unfold aluDiv at h
  split at h <;> cases h
  rfl

theorem aluMod_error {x y : Byte} {f : Fault} (h : aluMod x y = .error f) : f = .arithmetic .mod := by
  unfold aluMod at h
  split at h <;> cases h
  rfl

theorem map_error {α β : Type} {x : Except Fault α} {g : α → β} {f : Fault} (h : x.map g = .error f) :
    x = .error f := by
  cases x with
  | ok a => cases h
  | error e => cases h; rfl

/-- An operation code of the table raises ArithmeticFault or nothing. -/
theorem alu_error_of_mem {op x y : Byte} {f : Fault} (hop : op ∈ aluCodes) (h : alu op x y = .error f) :
    ∃ k, f = .arithmetic k := by
  simp only [aluCodes, List.mem_cons, List.not_mem_nil, or_false] at hop
  rcases hop with rfl | rfl | rfl | rfl | rfl | rfl | rfl | rfl | rfl | rfl | rfl | rfl
  case inr.inr.inr.inl => exact ⟨_, aluDiv_error (map_error h)⟩
  case inr.inr.inr.inr.inl => exact ⟨_, aluMod_error (map_error h)⟩
  all_goals cases h

theorem alu_of_not_mem {op : Byte} (h : op ∉ aluCodes) (x y : Byte) :
    alu op x y = .error .unsupportedOperation := by
  have hcode : op.toNat ∉ aluCodes.map BitVec.toNat := fun hm =>
    h ((List.mem_map_of_injective BitVec.toNat_injective).mp hm)
  unfold alu
  split
  case h_13 => rfl
  all_goals
    next e => exact absurd (by rw [e]; decide) hcode

theorem alu_unsupported_iff (op x y : Byte) : alu op x y = .error .unsupportedOperation ↔ op ∉ aluCodes := by
  refine ⟨fun h hop => ?_, fun h => alu_of_not_mem h x y⟩
  obtain ⟨k, e⟩ := alu_error_of_mem hop h
  cases e

/-- No fault of the ALU is a BoundsFault. -/
theorem alu_ne_bounds (op x y : Byte) (c : BoundsCause) : alu op x y ≠ .error (.bounds c) := by
  intro h
  by_cases hop : op ∈ aluCodes
  · obtain ⟨k, e⟩ := alu_error_of_mem hop h
    cases e
  · cases (alu_of_not_mem hop x y).symm.trans h

variable {i : Instr} {l : Line} {s : State} {a : Int}

theorem withReg_memFault {x : Byte} {g : RegIndex → Except Fault State}
    (h : withReg x g = .fault (.bounds (.mem a))) : ∃ r, x = regByte r ∧ g r = .error (.bounds (.mem a)) := by
  rcases withReg_fault h with ⟨-, e⟩ | hg
  · cases e
  · exact hg

theorem withRegs_memFault {x y : Byte} {g : RegIndex → RegIndex → Except Fault State}
    (h : withRegs x y g = .fault (.bounds (.mem a))) :
    ∃ q r, x = regByte q ∧ y = regByte r ∧ g q r = .error (.bounds (.mem a)) := by
  rcases withRegs_fault h with ⟨-, e⟩ | ⟨-, -, e⟩ | hg
  · cases e
  · cases e
  · exact hg

theorem aluBinary_ne_memFault {op x y : Byte} : aluBinary op x y s ≠ .fault (.bounds (.mem a)) := by
  intro h
  obtain ⟨q, r, -, -, hg⟩ := withRegs_memFault h
  rcases bind_error hg with e | ⟨result, -, e⟩
  · exact alu_ne_bounds _ _ _ _ e
  · cases e

theorem push_memFault {v : Byte} (h : push v s = .error (.bounds (.mem a))) :
    (s.sp < 1 ∨ 256 < s.sp) ∧ a = s.sp - 1 := by
  rcases push_cases v s with ⟨-, -, e⟩ | ⟨hsp, e⟩ <;> cases e.symm.trans h
  exact ⟨hsp, rfl⟩

theorem pop_memFault (h : pop s = .error (.bounds (.mem a))) : (s.sp < 0 ∨ 255 < s.sp) ∧ a = s.sp := by
  rcases pop_cases s with ⟨-, -, e⟩ | ⟨hsp, e⟩ <;> cases e.symm.trans h
  exact ⟨hsp, rfl⟩

/-- The address of a register is a byte, so a store to it is always inside memory. -/
theorem memWrite_indirect (r : RegIndex) (v : Byte) (s : State) :
    memWrite (indirectAddress r s) v s = .ok { s with mem := s.mem.write (indirectAddress r s) v } := by
  have hlt := (s.reg r).isLt
  have haddr : indirectAddress r s ≤ 255 := by rw [indirectAddress]; omega
  rw [memWrite_ok (by omega) (by omega), Int.toNat_natCast]

/-- The accesses of an instruction that can be out of range: a push at SP − 1 and a pop at SP. -/
theorem exec_memFault (hs : Inv s) (h : exec i s = .fault (.bounds (.mem a))) :
    (a = -1 ∧ ((∃ r, i = .push r) ∨ ∃ r, i = .call r)) ∨
      (a = 256 ∧ ((∃ r, i = .pop r) ∨ i = .ret ∨ i = .iret)) := by
  obtain ⟨-, -, h0, h1, -⟩ := hs
  cases i with
  | hlt => cases h
  | ldi | prn | pra | jmp | jeq | jne | jgt | jge | jlt | jle | not =>
    obtain ⟨r, -, hg⟩ := withReg_memFault h
    cases hg
  | add | sub | mul | div | mod | cmp | and | or | xor | shl | shr => exact absurd h aluBinary_ne_memFault
  | st =>
    obtain ⟨q, r, -, -, hg⟩ := withRegs_memFault h
    rw [memWrite_indirect] at hg
    cases hg
  | push r =>
    obtain ⟨q, -, hg⟩ := withReg_memFault h
    rcases bind_error hg with e | ⟨t, -, e⟩
    · have := push_memFault e
      exact .inl ⟨by omega, .inl ⟨r, rfl⟩⟩
    · cases e
  | pop r =>
    obtain ⟨q, -, hg⟩ := withReg_memFault h
    rcases bind_error hg with e | ⟨t, -, e⟩
    · have := pop_memFault e
      exact .inr ⟨by omega, .inl ⟨r, rfl⟩⟩
    · cases e
  | call r =>
    obtain ⟨q, -, hg⟩ := withReg_memFault h
    rcases bind_error hg with e | ⟨t, -, e⟩
    · unfold pushAddress at e
      split at e
      · cases e
      · have := push_memFault e
        exact .inl ⟨by omega, .inr ⟨r, rfl⟩⟩
    · cases e
  | ret =>
    rcases bind_error (ofHandler_fault h) with e | ⟨t, -, e⟩
    · have := pop_memFault e
      exact .inr ⟨by omega, .inr (.inl rfl)⟩
    · cases e
  | iret =>
    have hg := ofHandler_fault h
    by_cases hsp : s.sp ≤ 247
    · obtain ⟨u, -, e, -⟩ := returnFromInterrupt_ok h0 hsp
      cases e.symm.trans hg
    · cases (returnFromInterrupt_fault (by omega) h1).symm.trans hg
      exact .inr ⟨rfl, .inr (.inr rfl)⟩

/-! ### Interrupt entry: where it faults and what it leaves (60_exceptions.md section 3) -/

theorem enterInterrupt_retaddr (h : 255 < s.pc) : enterInterrupt l s = .error (.bounds (.retaddr s.pc)) := by
  refine enterInterrupt_of_fault ?_
  rw [savedFrame, pushAll, acknowledge_pc, pushAddress_fault h, bind_error_eq]

theorem enterInterrupt_shortStack (hpc : s.pc ≤ 255) (h0 : 0 ≤ s.sp) (h9 : s.sp < 9) :
    enterInterrupt l s = .error (.bounds (.mem (-1))) :=
  enterInterrupt_of_fault (pushAll_fault (savedFrame_le hpc) h0 (by rw [acknowledge_sp]; omega) h9)

/-- The frame of interrupt entry: with room for nine bytes it goes on, the k-th saved value lies at SP − 1 − k, and
no other byte changes. -/
theorem enterInterrupt_frame (hwf : s.mem.wf = true) (hpc : s.pc ≤ 255) (h9 : 9 ≤ s.sp) (h256 : s.sp ≤ 256) :
    ∃ t, enterInterrupt l s = .ok t ∧ t.pc = (t.byteAt (0xF8 + l.val)).toNat ∧
      (∀ k (h : k < (savedFrame (acknowledge l s)).length),
        t.byteAt (s.sp - 1 - k).toNat = BitVec.ofNat 8 (savedFrame (acknowledge l s))[k]) ∧
      (∀ x : Nat, (x : Int) < s.sp - 9 ∨ s.sp ≤ x → t.byteAt x = s.byteAt x) := by
  obtain ⟨u, hu, -, -, hframe, hrest⟩ := pushAll_ok (vs := savedFrame (acknowledge l s)) (s := acknowledge l s)
    hwf (savedFrame_le hpc) h9 h256
  exact ⟨_, enterInterrupt_of_pushAll hu, rfl, hframe, hrest⟩

theorem enterInterrupt_memFault (hs : Inv s) (h : enterInterrupt l s = .error (.bounds (.mem a))) : a = -1 := by
  obtain ⟨hwf, -, h0, h1, -⟩ := hs
  by_cases hpc : s.pc ≤ 255
  · by_cases h9 : 9 ≤ s.sp
    · obtain ⟨t, e, -⟩ := enterInterrupt_frame (l := l) hwf hpc h9 h1
      cases e.symm.trans h
    · cases (enterInterrupt_shortStack hpc h0 (by omega)).symm.trans h
      rfl
  · cases (enterInterrupt_retaddr (by omega)).symm.trans h

end Sys2Proof.Machine

namespace Sys2Proof.Proofs

open Sys2Proof.Machine

/-- Settles O17 (`exec_firstBad`). -/
theorem firstBadRegisterOperandIsReported : Obligations.FirstBadRegisterOperandIsReported :=
  fun _ s _ h => exec_firstBad h s

/-- Settles O19: the ALU's table (`alu_unsupported_iff`); what an instruction raises is a BoundsFault or an
ArithmeticFault (`exec_fault_cases`), and interrupt entry raises a BoundsFault (`enterInterrupt_error`). -/
theorem unsupportedOperationIsNeverRaised : Obligations.UnsupportedOperationIsNeverRaised := by
  refine ⟨alu_unsupported_iff, fun i s h => ?_, fun l s h => ?_⟩
  · rcases exec_fault_cases h with ⟨c, e⟩ | ⟨a, b, -, ⟨e, -⟩ | ⟨e, -⟩⟩ <;> cases e
  · obtain ⟨c, e⟩ := enterInterrupt_error h
    cases e

/-- Settles O20: the policy is `memRead` and `memWrite` with read after write; the out-of-range accesses are
`exec_memFault` and `enterInterrupt_memFault`. -/
theorem memoryBoundsPolicy : Obligations.MemoryBoundsPolicy := by
  refine ⟨fun a v s => ⟨fun h => ⟨memRead_fault h, memWrite_fault h⟩, fun h0 h1 hwf => ⟨memRead_ok h0 h1, ?_⟩⟩,
    fun i s a => exec_memFault, fun l s a => enterInterrupt_memFault⟩
  exact ⟨_, memWrite_ok h0 h1, rfl, write_wf hwf (by omega), read_write_same hwf, fun b hb => read_write_other hb⟩

/-- Settles O43 (`enterInterrupt_retaddr`, `enterInterrupt_shortStack`). -/
theorem interruptEntryFaults : Obligations.InterruptEntryFaults :=
  fun _ _ => ⟨enterInterrupt_retaddr, enterInterrupt_shortStack⟩

end Sys2Proof.Proofs
end

section
/-! ### What the ALU's instructions compute (41_alu.md) -/

namespace Sys2Proof.Machine

/-- A two-operand ALU instruction whose operation gives flags writes FL only and moves PC on by 3. -/
theorem aluBinary_of_flags {op : Byte} {a b : RegIndex} {s : State} {fl : BitVec 3}
    (h : alu op (s.reg a) (s.reg b) = .ok (.flags fl)) :
    aluBinary op (regByte a) (regByte b) s = .next { s with fl := fl, pc := s.pc + 3 } := by
  rw [aluBinary, withRegs_regByte, h, bind_ok_eq, ofHandler_ok, writeResult_flags, State.advance]

theorem aluNot_eq_not (x : Byte) : aluNot x = ~~~x := by
  rw [aluNot_eq]
  apply BitVec.eq_of_toNat_eq
  rw [BitVec.toNat_not, BitVec.toNat_ofNat, Nat.mod_eq_of_lt (by omega)]

section results

variable (a b : RegIndex) (s : State)

theorem exec_add : exec (.add (regByte a) (regByte b)) s =
    .next { s with regs := s.regs.set a.val (s.reg a + s.reg b), pc := s.pc + 3 } :=
  aluBinary_of_value (by rw [alu_add, aluAdd_eq])

theorem exec_sub : exec (.sub (regByte a) (regByte b)) s =
    .next { s with regs := s.regs.set a.val (s.reg a - s.reg b), pc := s.pc + 3 } :=
  aluBinary_of_value (by rw [alu_sub, aluSub_eq])

theorem exec_mul : exec (.mul (regByte a) (regByte b)) s =
    .next { s with regs := s.regs.set a.val (s.reg a * s.reg b), pc := s.pc + 3 } :=
  aluBinary_of_value (by rw [alu_mul, aluMul_eq])

theorem exec_cmp : exec (.cmp (regByte a) (regByte b)) s =
    .next { s with fl := compareFlags (s.reg a) (s.reg b), pc := s.pc + 3 } :=
  aluBinary_of_flags (alu_cmp _ _)

theorem exec_and : exec (.and (regByte a) (regByte b)) s =
    .next { s with regs := s.regs.set a.val (s.reg a &&& s.reg b), pc := s.pc + 3 } :=
  aluBinary_of_value (alu_and _ _)

theorem exec_or : exec (.or (regByte a) (regByte b)) s =
    .next { s with regs := s.regs.set a.val (s.reg a ||| s.reg b), pc := s.pc + 3 } :=
  aluBinary_of_value (alu_or _ _)

theorem exec_xor : exec (.xor (regByte a) (regByte b)) s =
    .next { s with regs := s.regs.set a.val (s.reg a ^^^ s.reg b), pc := s.pc + 3 } :=
  aluBinary_of_value (alu_xor _ _)

theorem exec_shl : exec (.shl (regByte a) (regByte b)) s =
    .next { s with regs := s.regs.set a.val (aluShl (s.reg a) (s.reg b)), pc := s.pc + 3 } :=
  aluBinary_of_value (alu_shl _ _)

theorem exec_shr : exec (.shr (regByte a) (regByte b)) s =
    .next { s with regs := s.regs.set a.val (aluShr (s.reg a) (s.reg b)), pc := s.pc + 3 } :=
  aluBinary_of_value (alu_shr _ _)

theorem exec_not : exec (.not (regByte a)) s =
    .next { s with regs := s.regs.set a.val (~~~(s.reg a)), pc := s.pc + 2 } := by
  rw [← aluNot_eq_not]
  exact withReg_regByte a _

end results

theorem add_eq_ofNat (x y : Byte) : x + y = BitVec.ofNat 8 ((x.toNat + y.toNat) % 256) := by
  apply BitVec.eq_of_toNat_eq
  rw [BitVec.toNat_add, BitVec.toNat_ofNat, Nat.mod_mod]

theorem mul_eq_ofNat (x y : Byte) : x * y = BitVec.ofNat 8 (x.toNat * y.toNat % 256) := by
  apply BitVec.eq_of_toNat_eq
  rw [BitVec.toNat_mul, BitVec.toNat_ofNat, Nat.mod_mod]

/-- The borrow of 256 does not show in a byte. -/
theorem sub_eq_ofNat (x y : Byte) : x - y = BitVec.ofNat 8 ((256 + x.toNat - y.toNat) % 256) := by
  apply BitVec.eq_of_toNat_eq
  rw [BitVec.toNat_sub, BitVec.toNat_ofNat, Nat.mod_mod]
  omega

theorem aluShl_toNat (x y : Byte) : (aluShl x y).toNat = x.toNat * 2 ^ y.toNat % 256 := by
  rw [aluShl_eq, BitVec.toNat_ofNat]

theorem aluShr_toNat (x y : Byte) : (aluShr x y).toNat = x.toNat / 2 ^ y.toNat := by
  rw [aluShr_eq, BitVec.toNat_ofNat]
  exact Nat.mod_eq_of_lt ((Nat.div_le_self _ _).trans_lt x.isLt)

/-- A count of 8 or more shifts every bit out, to the left because 256 divides the factor. -/
theorem aluShl_eq_zero (x : Byte) {y : Byte} (h : 8 ≤ y.toNat) : aluShl x y = 0#8 := by
  apply BitVec.eq_of_toNat_eq
  rw [aluShl_toNat]
  exact Nat.mod_eq_zero_of_dvd ((Nat.pow_dvd_pow 2 h).mul_left x.toNat)

/-- A count of 8 or more shifts every bit out, to the right because the divisor is above 255. -/
theorem aluShr_eq_zero (x : Byte) {y : Byte} (h : 8 ≤ y.toNat) : aluShr x y = 0#8 := by
  apply BitVec.eq_of_toNat_eq
  rw [aluShr_toNat]
  exact Nat.div_eq_of_lt (x.isLt.trans_le (Nat.pow_le_pow_right (by decide) h))

/-- Writing a register's old value back undoes a write to it. -/
theorem regs_set_set_reg (s : State) (r : RegIndex) (v : Byte) :
    (s.regs.set r.val v).set r.val (s.reg r) = s.regs := by
  rw [Vector.set_set, State.reg, Vector.set_getElem_self]

section compare

variable (x y : Byte)

theorem flagE_compareFlags : flagE (compareFlags x y) = decide (x.toNat = y.toNat) := by
  unfold compareFlags
  split
  · simp [flagE, *]
  · split <;> simp [flagE, *]

theorem flagL_compareFlags : flagL (compareFlags x y) = decide (x.toNat < y.toNat) := by
  unfold compareFlags
  split
  · simp [flagL, *]
  · split <;> simp [flagL, *]

theorem flagG_compareFlags : flagG (compareFlags x y) = decide (y.toNat < x.toNat) := by
  unfold compareFlags
  split
  · simp [flagG, *]
  · split
    · simp [flagG]; omega
    · simp [flagG]; omega

theorem compareFlags_cases :
    compareFlags x y = 0b001#3 ∨ compareFlags x y = 0b010#3 ∨ compareFlags x y = 0b100#3 := by
  unfold compareFlags
  split
  · exact .inl rfl
  · split
    · exact .inr (.inl rfl)
    · exact .inr (.inr rfl)

end compare

end Sys2Proof.Machine

namespace Sys2Proof.Proofs

open Sys2Proof.Machine

/-- Settles O21: the bit vectors' own sum, difference and product are those modulo 256. -/
theorem addSubMulResults : Obligations.AddSubMulResults := fun a b s =>
  ⟨by rw [exec_add, add_eq_ofNat], by rw [exec_sub, sub_eq_ofNat], by rw [exec_mul, mul_eq_ofNat]⟩

/-- Settles O23: the results are the bit vectors' own operations, which act bit by bit. -/
theorem bitwiseResults : Obligations.BitwiseResults := by
  refine fun a b s => ⟨_, _, _, _, exec_and a b s, exec_or a b s, exec_xor a b s, exec_not a s, ?_, fun k hk => ?_⟩
  · rw [BitVec.toNat_not]
  · exact ⟨BitVec.getLsbD_and, BitVec.getLsbD_or, BitVec.getLsbD_xor, by rw [BitVec.getLsbD_not]; simp [hk]⟩

/-- Settles O24 (`aluShl_toNat`, `aluShr_toNat`, and for a count of 8 or more `aluShl_eq_zero`, `aluShr_eq_zero`). -/
theorem shiftResults : Obligations.ShiftResults := fun a b s =>
  ⟨_, _, exec_shl a b s, exec_shr a b s, aluShl_toNat _ _, aluShr_toNat _ _,
    fun h => ⟨aluShl_eq_zero _ h, aluShr_eq_zero _ h⟩⟩

/-- Settles O25: the flags of a compare, one lemma each. -/
theorem cmpSetsExactlyOneFlag : Obligations.CmpSetsExactlyOneFlag := fun a b s =>
  ⟨_, exec_cmp a b s, by rw [flagE_compareFlags, decide_eq_true_iff], by rw [flagL_compareFlags, decide_eq_true_iff],
    by rw [flagG_compareFlags, decide_eq_true_iff], compareFlags_cases _ _⟩

/-- Settles O26: register b is another one, so SUB subtracts what ADD added. -/
theorem addThenSubRestores : Obligations.AddThenSubRestores := by
  intro a b s hab
  refine ⟨(s.setReg a (s.reg a + s.reg b)).advance 3, exec_add a b s, ?_⟩
  rw [exec_sub, advance_reg, advance_reg, reg_setReg_same, reg_setReg_other _ _ _ _ hab.symm,
    BitVec.add_sub_cancel, advance_regs, setReg_regs, regs_set_set_reg]
  rfl

end Sys2Proof.Proofs
end

section
/-! ### Data movement and control flow (42_data_movement.md section 2; 43_control_flow.md; 44_system_io.md) -/

namespace Sys2Proof.Machine

open Sys2Proof.Safety

section moves

variable (a b r : RegIndex) (v : Byte) (s : State)

theorem exec_ldi : exec (.ldi (regByte r) v) s = .next { s with regs := s.regs.set r.val v, pc := s.pc + 3 } :=
  withReg_regByte r _

theorem exec_st : exec (.st (regByte a) (regByte b)) s =
    .next { s with mem := s.mem.write (indirectAddress a s) (s.reg b), pc := s.pc + 3 } := by
  rw [exec, execSt, withRegs_regByte, memWrite_indirect]
  rfl

theorem exec_jmp : exec (.jmp (regByte a)) s = .next { s with pc := (s.reg a).toNat } := withReg_regByte a _

theorem exec_prn : exec (.prn (regByte r)) s =
    .next { s with out := s.out ++ [.dec (s.reg r)], pc := s.pc + 2 } := withReg_regByte r _

theorem exec_pra : exec (.pra (regByte r)) s =
    .next { s with out := s.out ++ [.chr (s.reg r)], pc := s.pc + 2 } := withReg_regByte r _

theorem conditionalJump_regByte (c : BitVec 3 → Bool) : conditionalJump c (regByte a) s =
    .next { s with pc := if c s.fl then (s.reg a).toNat else s.pc + 2 } := by
  rw [conditionalJump, withReg_regByte, ofHandler_ok]
  split <;> rfl

/-- A conditional jump whose condition of FL is the proposition `p`. -/
theorem conditionalJump_of_iff {c : BitVec 3 → Bool} {p : Prop} [Decidable p] {s : State} (a : RegIndex)
    (h : c s.fl = true ↔ p) : conditionalJump c (regByte a) s =
    .next { s with pc := if p then (s.reg a).toNat else s.pc + 2 } := by
  rw [conditionalJump_regByte]
  simp only [h]

end moves

section conditions

variable (x y : Byte)

theorem condEq_compareFlags : condEq (compareFlags x y) = true ↔ x.toNat = y.toNat := by
  rw [condEq, flagE_compareFlags, decide_eq_true_iff]

theorem condNe_compareFlags : condNe (compareFlags x y) = true ↔ x.toNat ≠ y.toNat := by
  rw [condNe, flagE_compareFlags, Bool.not_eq_true', decide_eq_false_iff_not]

theorem condGt_compareFlags : condGt (compareFlags x y) = true ↔ y.toNat < x.toNat := by
  rw [condGt, flagG_compareFlags, decide_eq_true_iff]

theorem condGe_compareFlags : condGe (compareFlags x y) = true ↔ y.toNat ≤ x.toNat := by
  rw [condGe, flagG_compareFlags, flagE_compareFlags, Bool.or_eq_true, decide_eq_true_iff, decide_eq_true_iff]
  omega

theorem condLt_compareFlags : condLt (compareFlags x y) = true ↔ x.toNat < y.toNat := by
  rw [condLt, flagL_compareFlags, decide_eq_true_iff]

theorem condLe_compareFlags : condLe (compareFlags x y) = true ↔ x.toNat ≤ y.toNat := by
  rw [condLe, flagL_compareFlags, flagE_compareFlags, Bool.or_eq_true, decide_eq_true_iff, decide_eq_true_iff]
  omega

end conditions

section stack

variable {a r : RegIndex} {s : State}

theorem exec_push_ok (h1 : 1 ≤ s.sp) (h2 : s.sp ≤ 256) : exec (.push (regByte r)) s =
    .next { s with mem := s.mem.write (s.sp - 1).toNat (s.reg r), sp := s.sp - 1, pc := s.pc + 2 } := by
  rw [exec, execPush, withReg_regByte, push_ok h1 h2]
  rfl

theorem exec_push_fault (h : s.sp < 1 ∨ 256 < s.sp) :
    exec (.push (regByte r)) s = .fault (.bounds (.mem (s.sp - 1))) := by
  rw [exec, execPush, withReg_regByte, push_fault h]
  rfl

theorem exec_pop_ok (h0 : 0 ≤ s.sp) (h1 : s.sp ≤ 255) : exec (.pop (regByte r)) s =
    .next { s with regs := s.regs.set r.val (s.byteAt s.sp.toNat), sp := s.sp + 1, pc := s.pc + 2 } := by
  rw [exec, execPop, withReg_regByte, pop_ok h0 h1]
  rfl

theorem exec_pop_fault (h : s.sp < 0 ∨ 255 < s.sp) :
    exec (.pop (regByte r)) s = .fault (.bounds (.mem s.sp)) := by
  rw [exec, execPop, withReg_regByte, pop_fault h]
  rfl

theorem exec_call_ok (hpc : s.pc + 2 ≤ 255) (h1 : 1 ≤ s.sp) (h2 : s.sp ≤ 256) : exec (.call (regByte a)) s =
    .next { s with
      mem := s.mem.write (s.sp - 1).toNat (BitVec.ofNat 8 (s.pc + 2)), sp := s.sp - 1,
      pc := (s.reg a).toNat } := by
  rw [exec, execCall, withReg_regByte, pushAddress_ok hpc, push_ok h1 h2]
  rfl

theorem exec_call_retaddr (hpc : 255 < s.pc + 2) :
    exec (.call (regByte a)) s = .fault (.bounds (.retaddr (s.pc + 2))) := by
  rw [exec, execCall, withReg_regByte, pushAddress_fault hpc]
  rfl

theorem exec_call_stackFault (hpc : s.pc + 2 ≤ 255) (h : s.sp < 1 ∨ 256 < s.sp) :
    exec (.call (regByte a)) s = .fault (.bounds (.mem (s.sp - 1))) := by
  rw [exec, execCall, withReg_regByte, pushAddress_ok hpc, push_fault h]
  rfl

theorem exec_ret_ok (h0 : 0 ≤ s.sp) (h1 : s.sp ≤ 255) :
    exec .ret s = .next { s with pc := (s.byteAt s.sp.toNat).toNat, sp := s.sp + 1 } := by
  rw [exec, execRet, pop_ok h0 h1]
  rfl

theorem exec_ret_fault (h : s.sp < 0 ∨ 255 < s.sp) : exec .ret s = .fault (.bounds (.mem s.sp)) := by
  rw [exec, execRet, pop_fault h]
  rfl

end stack

/-- A return address fits a byte. -/
theorem ofNat_toNat_of_le {n : Nat} (h : n ≤ 255) : (BitVec.ofNat 8 n).toNat = n := by
  rw [BitVec.toNat_ofNat, Nat.mod_eq_of_lt (by omega)]

end Sys2Proof.Machine

namespace Sys2Proof.Proofs

open Sys2Proof.Machine

/-- Settles O27 (`exec_ldi`). -/
theorem ldiLoadsTheImmediate : Obligations.LdiLoadsTheImmediate := exec_ldi

/-- Settles O28 (`exec_st`, with read after write). -/
theorem stStoresOneByte : Obligations.StStoresOneByte := fun a b s hwf =>
  ⟨_, exec_st a b s, rfl, read_write_same hwf, fun _ hx => read_write_other hx⟩

/-- Settles O29 (`exec_push_ok`, `exec_push_fault`, with read after write). -/
theorem pushStoresBelowSp : Obligations.PushStoresBelowSp := fun _ _ hwf =>
  ⟨fun h1 h2 => ⟨_, exec_push_ok h1 h2, rfl, read_write_same hwf, fun _ hx => read_write_other hx⟩, exec_push_fault⟩

/-- Settles O30 (`exec_pop_ok`, `exec_pop_fault`). -/
theorem popLoadsFromSp : Obligations.PopLoadsFromSp := fun _ _ => ⟨exec_pop_ok, exec_pop_fault⟩

/-- Settles O31: POP reads at SP − 1, where PUSH stored. -/
theorem pushThenPopMovesTheValue : Obligations.PushThenPopMovesTheValue := by
  intro r r2 s hwf h1 h2
  refine ⟨_, _, exec_push_ok h1 h2, exec_pop_ok (by simp only; omega) (by simp only; omega), ?_,
    read_write_same hwf, fun x hx => read_write_other hx⟩
  have hread : Memory.read (s.mem.write (s.sp - 1).toNat (s.reg r)) (s.sp - 1).toNat = s.reg r := read_write_same hwf
  simp only [State.byteAt, hread, Int.sub_add_cancel]

/-- Settles O32 (`exec_call_ok`, `exec_call_retaddr`, `exec_call_stackFault`). -/
theorem callPushesTheReturnAddress : Obligations.CallPushesTheReturnAddress := by
  refine fun a s hwf => ⟨fun hpc h1 h2 => ⟨_, exec_call_ok hpc h1 h2, rfl, ?_, fun x hx => read_write_other hx⟩,
    exec_call_retaddr, exec_call_stackFault⟩
  rw [State.byteAt, read_write_same hwf, ofNat_toNat_of_le hpc]

/-- Settles O33 (`exec_ret_ok`, `exec_ret_fault`). -/
theorem retPopsThePc : Obligations.RetPopsThePc := fun _ => ⟨exec_ret_ok, exec_ret_fault⟩

/-- Settles O34: RET reads the byte that CALL stored at its SP. -/
theorem callThenRetReturns : Obligations.CallThenRetReturns := by
  refine fun a s hwf hpc h1 h2 => ⟨_, exec_call_ok (by omega) h1 h2, rfl, fun h hsp hbyte => ?_⟩
  simp only at hsp
  have hret : (h.byteAt h.sp.toNat).toNat = s.pc + 2 := by
    rw [hbyte, State.byteAt, read_write_same hwf, ofNat_toNat_of_le (by omega)]
  rw [exec_ret_ok (by omega) (by omega), hret, hsp, Int.sub_add_cancel]

/-- Settles O35 (`exec_jmp`). -/
theorem jmpSetsThePc : Obligations.JmpSetsThePc := exec_jmp

/-- Settles O36: each condition as it is defined decides the jump (`conditionalJump_of_iff`). -/
theorem conditionalJumpsReadTheFlags : Obligations.ConditionalJumpsReadTheFlags := by
  refine fun a s => ⟨conditionalJump_of_iff a .rfl, conditionalJump_of_iff a ?_, conditionalJump_of_iff a .rfl,
    conditionalJump_of_iff a ?_, conditionalJump_of_iff a .rfl, conditionalJump_of_iff a ?_⟩
  · rw [condNe, flagE, Bool.not_eq_true']
  · rw [condGe, flagG, flagE, Bool.or_eq_true]
  · rw [condLe, flagL, flagE, Bool.or_eq_true]

/-- Settles O37: after a compare each condition of FL is its comparison, and decides the jump
(`conditionalJump_of_iff`). -/
theorem jumpAfterCompareFollowsTheComparison : Obligations.JumpAfterCompareFollowsTheComparison := fun a b c s =>
  ⟨_, exec_cmp a b s, conditionalJump_of_iff c (condEq_compareFlags _ _),
    conditionalJump_of_iff c (condNe_compareFlags _ _), conditionalJump_of_iff c (condGt_compareFlags _ _),
    conditionalJump_of_iff c (condGe_compareFlags _ _), conditionalJump_of_iff c (condLt_compareFlags _ _),
    conditionalJump_of_iff c (condLe_compareFlags _ _)⟩

/-- Settles O39. -/
theorem hltHaltsAndAdvances : Obligations.HltHaltsAndAdvances := fun _ => rfl

/-- Settles O40 (`exec_prn`, `exec_pra`). -/
theorem printsEmitTheRegister : Obligations.PrintsEmitTheRegister := fun r s => ⟨exec_prn r s, exec_pra r s⟩

end Sys2Proof.Proofs
end

section
/-! ### The timer, interrupt entry and IRET (60_exceptions.md sections 2 to 4; 44_system_io.md section 3) -/

namespace Sys2Proof.Machine

open Sys2Proof.Safety

variable {l : Line} {s t : State}

/-- IS with the taken line's bit clear. -/
theorem acknowledged_getLsbD (v : Byte) (l : Line) {k : Nat} (hk : k < 8) :
    (v &&& ~~~(1#8 <<< l.val)).getLsbD k = (v.getLsbD k && decide (k ≠ l.val)) := by
  have hl := l.isLt
  rw [BitVec.getLsbD_and, BitVec.getLsbD_not, ← BitVec.twoPow_eq, BitVec.getLsbD_twoPow]
  simp [hk, hl, eq_comm]

theorem or_one_eq_self {v : Byte} (h : v.getLsbD 0 = true) : v ||| 1#8 = v := by
  apply BitVec.eq_of_getLsbD_eq
  intro k hk
  cases k with
  | zero => simp [h]
  | succ k => simp

/-- A fire sets IS bit 0 and touches no other register. -/
theorem timerCheck_regs_of_fire (h : s.timerFire = true) : (timerCheck s).regs = s.regs.set 6 (s.is ||| 1#8) := by
  rw [timerCheck_eq]
  exact if_pos h

theorem timerCheck_reg_of_fire (h : s.timerFire = true) (r : RegIndex) :
    (timerCheck s).reg r = if r = 6 then s.is ||| 1#8 else s.reg r := by
  rw [← reg_setReg, State.reg, State.reg, setReg_regs]
  simp only [timerCheck_regs_of_fire h]
  rfl

theorem timerCheck_regs_of_no_fire (h : s.timerFire = false) : (timerCheck s).regs = s.regs := by
  rw [timerCheck_eq]
  simp [h]

theorem enterInterrupt_regs (h : enterInterrupt l s = .ok t) : t.regs = (acknowledge l s).regs :=
  (congrArg State.regs (enterInterrupt_state h).1 :)

theorem enterInterrupt_reg (h : enterInterrupt l s = .ok t) (r : RegIndex) :
    t.reg r = if r = 6 then s.is &&& ~~~(1#8 <<< l.val) else s.reg r := by
  rw [← acknowledge_reg, State.reg, State.reg]
  simp only [enterInterrupt_regs h]

theorem enterInterrupt_is (h : enterInterrupt l s = .ok t) : t.is = s.is &&& ~~~(1#8 <<< l.val) :=
  enterInterrupt_reg h 6

theorem enterInterrupt_fl (h : enterInterrupt l s = .ok t) : t.fl = s.fl :=
  (congrArg State.fl (enterInterrupt_state h).1 :)

/-- Interrupt entry that goes on saved a PC that is a byte. -/
theorem enterInterrupt_pc_le (h : enterInterrupt l s = .ok t) : s.pc ≤ 255 := by
  by_contra hpc
  cases (enterInterrupt_retaddr (Nat.lt_of_not_le hpc)).symm.trans h

/-- The frame's order: R0 to R6 come after PC and FL. -/
theorem savedFrame_reg (s : State) {r : RegIndex} (hr : r.val ≤ 6) (h : r.val + 2 < (savedFrame s).length) :
    (savedFrame s)[r.val + 2] = (s.reg r).toNat := by
  obtain ⟨n, hn⟩ := r
  simp only at hr
  interval_cases n <;> rfl

theorem flagsOfByte_toNat (v : Byte) : (flagsOfByte v).toNat = v.toNat % 8 := by
  rw [flagsOfByte, BitVec.extractLsb'_toNat]
  rfl

end Sys2Proof.Machine

namespace Sys2Proof.Proofs

open Sys2Proof.Machine

/-- Settles O41: everything the timer check can do (`timerCheck_eq`), and on a fire the bits of IS. -/
theorem timerCheckSetsOnlyIsBitZero : Obligations.TimerCheckSetsOnlyIsBitZero := by
  refine fun s => ⟨by rw [timerCheck_eq], timerCheck_regs_of_no_fire, fun h => ?_⟩
  have his : (timerCheck s).is = s.is ||| 1#8 := timerCheck_reg_of_fire h 6
  refine ⟨fun r hr => by rw [timerCheck_reg_of_fire h, if_neg hr], by simp [his], fun k hk => ?_, fun hset => ?_⟩
  · simp [his, BitVec.getLsbD_one, Nat.ne_of_gt hk]
  · rw [timerCheck_regs_of_fire h, or_one_eq_self hset]
    exact Vector.set_getElem_self _

/-- Settles O42: the state interrupt entry leaves (`enterInterrupt_state`), with the nine values of the frame
(`enterInterrupt_frame`) in their order. -/
theorem interruptEntrySavesNineBytes : Obligations.InterruptEntrySavesNineBytes := by
  intro l s hwf hpc h9 h256
  obtain ⟨t, ht, htpc, hframe, hrest⟩ := enterInterrupt_frame (l := l) hwf hpc h9 h256
  have his := enterInterrupt_is ht
  have hfl : s.fl.toNat ≤ 255 := by omega
  refine ⟨t, ht, ?_, fun k hk => by rw [his, acknowledged_getLsbD _ _ hk], ?_, ?_, fun r hr => ?_, hrest⟩
  · rw [his, ← htpc]
    exact (enterInterrupt_state ht).1
  · rw [show s.sp - 1 = s.sp - 1 - ((0 : Nat) : Int) by omega, hframe 0 (by rw [savedFrame_length]; decide)]
    exact ofNat_toNat_of_le hpc
  · rw [show s.sp - 2 = s.sp - 1 - ((1 : Nat) : Int) by omega, hframe 1 (by rw [savedFrame_length]; decide)]
    exact ofNat_toNat_of_le hfl
  · have hlen : r.val + 2 < (savedFrame (acknowledge l s)).length := by rw [savedFrame_length]; omega
    rw [show s.sp - 3 - (r.val : Int) = s.sp - 1 - ((r.val + 2 : Nat) : Int) by omega, hframe _ hlen,
      savedFrame_reg _ hr, BitVec.ofNat_toNat, BitVec.setWidth_eq, acknowledge_reg, enterInterrupt_reg ht]

/-- Settles O44 (`returnFromInterrupt_ok`, `returnFromInterrupt_fault`). -/
theorem iretPopsNineBytes : Obligations.IretPopsNineBytes := by
  refine fun s => ⟨fun h0 h1 => ?_, fun h0 h1 => congrArg ofHandler (returnFromInterrupt_fault h0 h1)⟩
  obtain ⟨u, -, hret, hregs, h7⟩ := returnFromInterrupt_ok h0 h1
  exact ⟨_, congrArg ofHandler hret, rfl, hregs, h7, flagsOfByte_toNat _⟩

/-- Settles O45: entry's frame (O42) is what IRET pops (O44), because the handler kept it. -/
theorem iretUndoesInterruptEntry : Obligations.IretUndoesInterruptEntry := by
  intro l s hwf hpc h9 h256
  obtain ⟨t, ht, -, his, hsavedPc, hsavedFl, hsavedRegs, -⟩ := interruptEntrySavesNineBytes l s hwf hpc h9 h256
  refine ⟨t, ht, fun h hsp hkept => ?_⟩
  rw [enterInterrupt_sp ht] at hsp hkept
  obtain ⟨u, hu, hstate, hregs, h7, hfl⟩ := (iretPopsNineBytes h).1 (by omega) (by omega)
  have saved : ∀ d : Int, 1 ≤ d → d ≤ 9 → h.byteAt (h.sp + (9 - d)).toNat = t.byteAt (s.sp - d).toNat := by
    intro d h1 h9
    rw [hsp, show s.sp - 9 + (9 - d) = s.sp - d by omega]
    exact hkept _ (by omega) (by omega)
  have hpc' : (h.byteAt (h.sp + 8).toNat).toNat = s.pc := (congrArg _ (saved 1 (by decide) (by decide))).trans hsavedPc
  have hfl' : u.fl = s.fl := by
    have hbyte : (h.byteAt (h.sp + 7).toNat).toNat = s.fl.toNat :=
      (congrArg _ (saved 2 (by decide) (by decide))).trans hsavedFl
    apply BitVec.eq_of_toNat_eq
    rw [hfl, hbyte]
    omega
  have hreg : ∀ r : RegIndex, r.val ≤ 6 → u.reg r = t.reg r := by
    intro r hr
    rw [hregs r hr, ← hsavedRegs r hr, show s.sp - 3 - (r.val : Int) = s.sp - (3 + r.val) by omega,
      ← saved _ (by omega) (by omega), show h.sp + (9 - (3 + (r.val : Int))) = h.sp + 6 - r.val by omega]
  refine ⟨u, hu, ?_, fun r hr => ?_, fun k hk => ?_, h7⟩
  · rw [← hpc', ← hfl', show s.sp = h.sp + 9 by omega]
    exact hstate
  · have h6 : r ≠ 6 := by rintro rfl; simp at hr
    rw [hreg r (by omega), enterInterrupt_reg ht, if_neg h6]
  · rw [← his k hk]
    exact congrArg (BitVec.getLsbD · k) (hreg 6 (by decide))

end Sys2Proof.Proofs
end

section
/-! ### Who writes and who reads FL and the timer input (10_state.md section 3; 60_exceptions.md section 2) -/

namespace Sys2Proof.Machine

open Sys2Proof.Safety

theorem keepsCore_withFl (v : BitVec 3) : KeepsCore fun s => { s with fl := v } := by
  constructor <;> exact ⟨fun _ => rfl, fun _ _ => rfl⟩

theorem keepsCore_withTimerInput (input : List Bool) (draws : Nat) :
    KeepsCore fun s => { s with timerInput := input, draws := draws } := by
  constructor <;> exact ⟨fun _ => rfl, fun _ _ => rfl⟩

/-- An instruction other than CMP, a conditional jump and IRET neither reads nor writes FL. -/
theorem exec_withFl {i : Instr} (h : ¬ UsesFl i) (s : State) (v : BitVec 3) :
    exec i { s with fl := v } = mapNext (fun t => { t with fl := v }) (exec i s) := by
  refine exec_mapNext (keepsCore_withFl v) ?_ (fun hi => absurd hi h) ?_ ?_ s <;>
    exact fun _ => ⟨fun _ => rfl, fun _ _ => rfl⟩

/-- No instruction reads or writes the timer input to come. -/
theorem exec_withTimerInput (i : Instr) (s : State) (input : List Bool) (draws : Nat) :
    exec i { s with timerInput := input, draws := draws } =
      mapNext (fun t => { t with timerInput := input, draws := draws }) (exec i s) := by
  refine exec_mapNext (keepsCore_withTimerInput input draws) ?_ ?_ ?_ ?_ s <;>
    exact fun _ => ⟨fun _ => rfl, fun _ _ => rfl⟩

/-- CMP sets FL and does not read it. -/
theorem execCmp_withFl (a b : Byte) (s : State) (v : BitVec 3) :
    exec (.cmp a b) { s with fl := v } = exec (.cmp a b) s := rfl

/-- IRET loads FL and does not read it. -/
theorem execIret_withFl (s : State) (v : BitVec 3) : exec .iret { s with fl := v } = exec .iret s :=
  congrArg ofHandler <| ((keepsCore_withFl v).returnFromInterrupt ⟨fun _ => rfl, fun _ _ => rfl⟩ (g := id)
    (fun _ _ _ => rfl) s).trans (id_map _)

theorem exec_cmp_fl {a b : Byte} {s t : State} (h : exec (.cmp a b) s = .next t) :
    t.fl = 1#3 ∨ t.fl = 2#3 ∨ t.fl = 4#3 := by
  obtain ⟨q, r, result, rfl, rfl, -, -⟩ := aluBinary_next h
  obtain rfl := Host.Outcome.next.inj ((exec_cmp q r s).symm.trans h)
  exact compareFlags_cases _ _

theorem conditionalJump_fl {c : BitVec 3 → Bool} {a : Byte} {s t : State} (h : conditionalJump c a s = .next t) :
    t.fl = s.fl := by
  obtain ⟨r, -, rfl⟩ := conditionalJump_next h
  split <;> rfl

/-- Each jump's condition tells all flags set from none set. -/
theorem whenTaken_condition {i : Instr} (hi : policyOf i = .whenTaken) :
    ∃ (c : BitVec 3 → Bool) (a : Byte), i.registerOperands = [a] ∧ (∀ s, exec i s = conditionalJump c a s) ∧
      c 7#3 ≠ c 0#3 := by
  cases i with
  | jeq | jne | jgt | jge | jlt | jle => exact ⟨_, _, rfl, fun _ => rfl, by decide⟩
  | hlt | ldi | prn | pra | add | sub | mul | div | mod | cmp | and | or | xor | shl | shr | not | push | pop
  | call | ret | jmp | st | iret => cases hi

/-- A conditional jump reads FL: from reset, where no register holds PC + 2, it goes elsewhere with all flags set
than with none. -/
theorem whenTaken_reads_fl {i : Instr} (hi : policyOf i = .whenTaken) (hwf : i.wf = true) :
    ∃ (s : State) (fl : BitVec 3),
      exec i { s with fl := fl } ≠ mapNext (fun t => { t with fl := fl }) (exec i s) := by
  obtain ⟨c, a, ha, he, hc⟩ := whenTaken_condition hi
  obtain ⟨r, rfl, -⟩ : ∃ r : RegIndex, a = regByte r ∧ regOperand a = .ok r := by
    refine (regOperand_cases a).resolve_right fun hbad => ?_
    have := registerOperands_lt_of_wf hwf a (by simp [ha])
    omega
  refine ⟨State.reset, 7#3, fun h => ?_⟩
  have hreg : ∀ q : RegIndex, (State.reset.reg q).toNat ≠ 2 := by decide
  rw [he, he, conditionalJump_regByte, conditionalJump_regByte] at h
  have hpc : (if c 7#3 then (State.reset.reg r).toNat else 2) = if c 0#3 then (State.reset.reg r).toNat else 2 :=
    congrArg State.pc (Host.Outcome.next.inj h)
  cases h7 : c 7#3 <;> cases h0 : c 0#3 <;> simp [h7, h0, hreg r, (hreg r).symm] at hc hpc

end Sys2Proof.Machine

namespace Sys2Proof.Proofs

open Sys2Proof.Machine Sys2Proof.Safety

/-- Settles O46: the instructions outside `UsesFl` commute with an update of FL (`exec_withFl`); CMP and IRET set it
without reading it (`execCmp_withFl`, `execIret_withFl`); the conditional jumps read it (`whenTaken_reads_fl`); and
interrupt entry keeps it and pushes it (O42). -/
theorem flagsWritersAndReaders : Obligations.FlagsWritersAndReaders := by
  refine ⟨fun i s v hcmp hiret hjump => exec_withFl ?_ s v, fun i s t hi h => ?_, fun i => whenTaken_reads_fl,
    fun a b s t => exec_cmp_fl, fun s i v hi => ?_, fun s t h => (congrArg State.fl (execIret_next h).1 :),
    fun l s t hwf h => ?_, timerCheck_fl⟩
  · rintro (⟨a, b, h⟩ | h | h)
    exacts [hcmp a b h, hjump h, hiret h]
  · obtain ⟨c, a, -, e⟩ := exec_whenTaken hi
    exact conditionalJump_fl ((e s).symm.trans h)
  · rcases hi with rfl | ⟨a, b, rfl⟩
    · exact execIret_withFl s v
    · exact execCmp_withFl a b s v
  · obtain ⟨-, h0, h256⟩ := enterInterrupt_state h
    rw [enterInterrupt_sp h] at h0
    obtain ⟨u, hu, -, -, -, hfl, -⟩ :=
      interruptEntrySavesNineBytes l s hwf (enterInterrupt_pc_le h) (by omega) h256
    obtain rfl := Except.ok.inj (h.symm.trans hu)
    exact ⟨enterInterrupt_fl h, hfl⟩

/-- Settles O52 (`exec_withTimerInput`). -/
theorem timerInputReachesNoInstruction : Obligations.TimerInputReachesNoInstruction := exec_withTimerInput

end Sys2Proof.Proofs
end

section
/-! ### A store just ahead, reset and load (20_memory.md section 4; 70_reset_and_hazards.md; 40_fetch_execute.md) -/

namespace Sys2Proof.Machine

open Sys2Proof.Safety

variable {s : State}

/-- The iteration at a valid opcode, where its operands lie inside memory and no line is pending. -/
theorem executes_row {row : OpcodeRow} (hp : pendingLine (timerCheck s) = none) (hpc : s.pc ≤ 255)
    (hrow : lookupOpcode (s.byteAt s.pc) = some row) (hend : s.pc + 1 + row.operands ≤ 256) :
    Executes s (row.build (s.byteAt (s.pc + 1)) (s.byteAt (s.pc + 2))) :=
  ⟨hp, _, memRead_pc hpc, fetchInstr_row hrow hend⟩

/-- The byte that an iteration fetches is the opcode of the instruction it executes. -/
theorem fetchInstr_opcode {op : Byte} {i : Instr} (h : fetchInstr op s = .ok i) : opcodeOf i = op := by
  unfold fetchInstr at h
  split at h
  · cases h
  · next row hrow =>
    obtain ⟨bytes, -, hi⟩ := bind_ok h
    obtain rfl := Except.ok.inj hi
    obtain ⟨hmem, rfl⟩ := lookupOpcode_some hrow
    exact opcodeOf_build hmem _ _

/-- `load` accepts in Idle up to 256 bytes. -/
theorem load_accepted {bytes : List Byte} (hr : s.run = .idle) (hlen : bytes.length ≤ 256) :
    load bytes s = (.accepted, { s with mem := s.mem.writeBytes 0 bytes }) := by
  rw [load, if_neg (not_not.mpr hr), if_neg (by omega)]

theorem load_notIdle {bytes : List Byte} (hr : s.run ≠ .idle) : load bytes s = (.notIdle, s) := by
  rw [load, if_pos hr]

theorem load_tooLong {bytes : List Byte} (hr : s.run = .idle) (hlen : 256 < bytes.length) :
    load bytes s = (.tooLong, s) := by
  rw [load, if_neg (not_not.mpr hr), if_pos hlen]

end Sys2Proof.Machine

namespace Sys2Proof.Proofs

open Sys2Proof.Machine Sys2Proof.Safety

/-- Settles O53: ST leaves v at its own PC + 3 (O28), where the next iteration fetches. -/
theorem storedOpcodeIsFetchedNext : Obligations.StoredOpcodeIsFetchedNext := by
  intro s a b v hr hwf hst haddr hv
  have hlt := ((timerCheck s).reg a).isLt
  obtain ⟨t, hx, hstate, hstored, -⟩ := stStoresOneByte a b (timerCheck s) (by simpa using hwf)
  have hpc : t.pc = s.pc + 3 := by simpa using congrArg State.pc hstate
  have hrun : t.run = .running := by simpa [hr] using congrArg State.run hstate
  have hbyte : t.byteAt t.pc = v := by rwa [hpc, ← haddr, ← hv]
  refine ⟨t, step_of_executes_next hr hst hx, hpc, ?_⟩
  intro hp
  have hread : memRead t.pc t = .ok v := by rw [memRead_pc (by omega), hbyte]
  have hrow : ∀ row, lookupOpcode v = some row → s.pc + 3 + row.operands ≤ 255 →
      Executes t (row.build (t.byteAt (s.pc + 4)) (t.byteAt (s.pc + 5))) := by
    intro row hrow hend
    have := executes_row hp (by omega) (hbyte ▸ hrow) (by omega)
    rwa [hpc] at this
  refine ⟨by rw [memRead_timerCheck, hread], step_of_no_pendingLine hrun hp, fun hnone => ?_,
    fun row hl hend => ?_, fun hhlt => ?_⟩
  · rw [step_of_fetchInstr_error hrun hp hread (fetchInstr_invalid hnone), takeFault, hpc]
  · have hx := hrow row hl hend
    obtain ⟨-, op, hop, hi⟩ := id hx
    obtain rfl : v = op := Except.ok.inj (hread.symm.trans hop)
    refine ⟨_, hx, rfl, fetchInstr_opcode hi, fun u => step_of_executes_next hrun hx, fun f hf => ?_⟩
    rw [step_of_exec_fault hrun hp hread hi hf, takeFault, hpc]
  · subst hhlt
    have hx : Executes t .hlt := hrow _ rfl (by simp only; omega)
    refine ⟨_, step_of_executes_next hrun hx rfl, rfl, ?_⟩
    rw [advance_pc, timerCheck_pc, hpc]

/-- Settles O54. -/
theorem resetState : Obligations.ResetState :=
  ⟨fun _ => rfl, by decide, rfl, rfl, rfl, rfl, rfl, rfl⟩

/-- Settles O55: the three cases of `load`, and the bytes read back (`read_writeBytes`, `read_writeBytes_outside`). -/
theorem loadWritesTheBytesVerbatim : Obligations.LoadWritesTheBytesVerbatim := by
  refine fun bytes s hwf => ⟨fun hr hlen => ⟨_, load_accepted hr hlen, rfl, writeBytes_wf hwf (by omega),
    fun k hk => ?_, fun a ha => read_writeBytes_outside (.inr (by omega))⟩, load_notIdle, load_tooLong⟩
  have hread := read_writeBytes (a := 0) hwf (by omega) hk
  rwa [Nat.zero_add] at hread

end Sys2Proof.Proofs
end
